-- ==== Sys2Proof/Word.lean ====
section
/-! DEFINITION. The widths of the hardware's values (00_scope.md R5, R8). All of them are unsigned. -/

namespace Sys2Proof

/-- A byte: a `V` register, a timer, the stack counter, a memory byte, an immediate `NN`. -/
abbrev Byte := BitVec 8

/-- The 16-bit instruction word and the 16-bit keyboard latch. -/
abbrev Word := BitVec 16

/-- A 12-bit address: `pc`, `I`, an immediate `NNN`. -/
abbrev Addr := BitVec 12

/-- A 4-bit field of the instruction word. -/
abbrev Nibble := BitVec 4

/-- A register index, taken from an `X` or `Y` field: every value names a register (R21). -/
abbrev Reg := BitVec 4

/-- `VF`, the register that doubles as the flag (R22). -/
abbrev VF : Reg := 15#4

end Sys2Proof
end

