-- ==== Sys2Proof/Config.lean ====
section
/-! DEFINITION. The fixed parameters of the hardware (00_scope.md R5) and its one free value (R33).
The open parameters of R6 stand in `Sys2Proof/Machine/Params.lean`. -/

namespace Sys2Proof.Config

/-- `MEM_SIZE`: addresses are 0x000 to 0xFFF (R5, R60). -/
def memSize : Nat := 4096

/-- `PROGRAM_START`: the load address (R5, R80). -/
def programStart : Nat := 0x200

/-- `PROGRAM_MAX`: the most `Load` copies (R5, R80). -/
def programMax : Nat := memSize - programStart

/-- `FONT_BASE`: first byte of the font table (R5, R79). -/
def fontBase : Nat := 0x050

/-- `FONT_GLYPH_BYTES` (R5). -/
def glyphBytes : Nat := 5

/-- `FONT_GLYPHS` (R5). -/
def glyphs : Nat := 16

/-- `IB_HI`: the interpreter block is 0x000 to here, private to the core (R5, R62, R69). -/
def blockHi : Nat := 0x04F

/-- `NKEYS`: keys 0 to F, one bit each in `KEYS` (R5). -/
def nkeys : Nat := 16

/-- `draw8()` (R33 (b), R184): the random byte of the n-th draw. A FREE VALUE: it has no body, so a
statement about it holds for every value (entry 1). -/
opaque freeByte : Nat → Byte

end Sys2Proof.Config
end

