-- ==== Sys2Proof/Machine/Params.lean ====
section
/-! DEFINITION. The open parameters of 00_scope.md R6, each at the default the spec takes. Every one
is a point the source does not settle and the spec decides (92_eei_decisions.md): the log entry named
at each says how far a claim rests on it. -/

namespace Sys2Proof.Machine.Params

/-- `RESET_PC` (D4, entry 4). -/
def resetPc : Addr := 0x200#12

/-- `STACK_CAPACITY`: return addresses the stack holds (D9, entry 8). -/
def stackCapacity : Nat := 127

/-- `STACK_SLOT(sp)`: address of the first byte of the slot at depth `sp` (D8, entry 7). -/
def stackSlot (sp : Nat) : Nat := 0x1FE - sp

/-- `STACK_BIG_ENDIAN`: the high byte of a slot lies at the lower address (D8, entry 7). -/
def stackBigEndian : Bool := true

/-- `FONT`: sixteen glyphs of five rows, top row first (R79, D26, entry 18). PRESUMED: the spec gives
these bytes from general knowledge. -/
def font : List Byte :=
  [0xF0, 0x90, 0x90, 0x90, 0xF0,  0x20, 0x60, 0x20, 0x20, 0x70] ++
  [0xF0, 0x10, 0xF0, 0x80, 0xF0,  0xF0, 0x10, 0xF0, 0x10, 0xF0] ++
  [0x90, 0x90, 0xF0, 0x10, 0x10,  0xF0, 0x80, 0xF0, 0x10, 0xF0] ++
  [0xF0, 0x80, 0xF0, 0x90, 0xF0,  0xF0, 0x10, 0x20, 0x40, 0x40] ++
  [0xF0, 0x90, 0xF0, 0x90, 0xF0,  0xF0, 0x90, 0xF0, 0x10, 0xF0] ++
  [0xF0, 0x90, 0xF0, 0x90, 0x90,  0xE0, 0x90, 0xE0, 0x90, 0xE0] ++
  [0xF0, 0x80, 0x80, 0x80, 0xF0,  0xE0, 0x90, 0x90, 0x90, 0xE0] ++
  [0xF0, 0x80, 0xF0, 0x80, 0xF0,  0xF0, 0x80, 0xF0, 0x80, 0x80]

/-- `KEYWAIT_VALUE(keys)`: what `FX0A` stores (D11, entry 9). -/
def keywaitValue (keys : Word) : Byte := keys.setWidth 8

/-- `SHIFT_USES_VY` (D13, entry 11). -/
def shiftUsesVy : Bool := false

/-- `LOGIC_WRITES_VF` (D14, entry 12). -/
def logicWritesVf : Bool := false

/-- `FLAG_WRITTEN_LAST` (D12, entry 10). -/
def flagWrittenLast : Bool := true

/-- `LOADSTORE_INCREMENTS_I` (D15, entry 13). -/
def loadstoreIncrementsI : Bool := false

/-- `SPRITE_MSB_LEFT` (D16, entry 14). -/
def spriteMsbLeft : Bool := true

/-- `RAND_BITWISE_AND` (D18, entry 15). -/
def randBitwiseAnd : Bool := true

/-- `IGNORE_LOW_NIBBLE_5_9` (D22, entry 17). -/
def ignoreLowNibble59 : Bool := true

end Sys2Proof.Machine.Params
end

