-- ==== Sys2Proof/Machine/State.lean ====
section
/-! DEFINITION. The architectural state (10_state.md R20), the reasons a step stops
(60_exceptions.md R220, R222) and the state after reset (R39). -/

namespace Sys2Proof.Machine

/-- The bytes of `M` that differ from their reset contents, addresses strictly rising. The canonical
form is `Memory.wf`. -/
abbrev Memory := List Host.Cell

/-- `FB`: 32 rows of 64 pixels, `fb[y][x]` on or off (R32). -/
abbrev Framebuffer := Vector (Vector Bool 64) 32

/-- The complete state of the core (R20): nothing else persists from one step to the next. The step's
status is an output and no field (R29); a halted core is one whose step gave a fault (R222). -/
structure State where
  /-- `V0` to `VF`; `VF` doubles as the flag (R21, R22). -/
  v : Vector Byte 16
  /-- Program counter: the first byte of the next instruction (R23). -/
  pc : Addr
  /-- `I`, the index register (R24). -/
  i : Addr
  /-- `SP`, stack bytes in use (R25). -/
  sp : Byte
  /-- `DT`, the delay timer (R26). -/
  dt : Byte
  /-- `ST`, the sound timer (R27). -/
  st : Byte
  /-- `KEYS`, bit i is 1 while key i is down (R28). -/
  keys : Word
  /-- `M`, real bytes at 0x050 to 0xFFF (R31). -/
  mem : Memory
  /-- `FB` (R32). -/
  fb : Framebuffer
  /-- THE MODEL'S OWN field: how many random bytes were drawn, the index of the next free value
  (R33 (b), entry 1). -/
  draws : Nat
  deriving DecidableEq, Repr

/-- The terminal faults (R220, R222): the step has no successor state and only reset is defined
afterwards. What each carries is the diagnostic `info` of `raise`, stored in no register. -/
inductive Fault where
  /-- A value above 0xFFF for `pc` or for an effective address, or a stack overflow or underflow
  (R225): raised by `State.setPC`, `State.memRead`, `State.memWrite`, `execRet`, `execCallNnn`. Safe:
  the original wraps or goes on, and the spec makes it a fault (D6). -/
  | addressOverflow (info : Nat)
  /-- A program-issued access to 0x000 to 0x04F (R226): raised by `State.memRead` and
  `State.memWrite`. Safe: the original reads or corrupts its control fields (D3). -/
  | privateRegionAccess (addr : Nat)
  /-- A key number or font digit above 15 (R227): raised by `State.keyDown` and `execLdFVx`. Safe: what
  the original does there is not described (D17). -/
  | operandOutOfRange (value : Nat)
  deriving DecidableEq, Repr

/-- Refusals. Every instruction of the table has a meaning and every step's outcome is a next state or
a fault, so no step refuses. -/
inductive Refusal where
  /-- An instruction with no meaning yet, raised only by a refused arm of `exec`; no arm is refused.
  Safe. -/
  | notModelled (mnemonic : String)
  deriving DecidableEq, Repr

/-- What an instruction answers. -/
abbrev Result := Host.Outcome State Fault Refusal

/-- A framebuffer with every pixel off. -/
def blankDisplay : Framebuffer := Vector.replicate 32 (Vector.replicate 64 false)

/-- The state after reset (R39, R260): every register 0, `pc = RESET_PC`, memory at its reset contents,
which is what an unlisted address reads as, and the display blank. -/
def State.reset : State where
  v := Vector.replicate 16 0#8
  pc := Params.resetPc
  i := 0#12
  sp := 0#8
  dt := 0#8
  st := 0#8
  keys := 0#16
  mem := []
  fb := blankDisplay
  draws := 0

end Sys2Proof.Machine
end

