-- ==== Sys2Proof/Machine/Ops.lean ====
section
/-! DEFINITION. The named operations over memory, registers, the program counter and the stack
(20_memory.md, 40_cycle.md), and how an instruction ends. This hardware has no trap entry and no trap
return (R230, R231): the one way to take an exceptional condition is `raise`, which ends the step and
leaves no successor state. -/

namespace Sys2Proof.Machine

/-! Memory as data. -/

/-- What an unlisted address reads as: the reset contents, `FONT` at 0x050 to 0x09F and zero elsewhere
(R39, R79). -/
def Memory.unlisted (a : Nat) : Byte :=
  if Config.fontBase ≤ a then Params.font.getD (a - Config.fontBase) 0#8 else 0#8

/-- The listed byte at an address, if there is one. -/
def Memory.lookup : Memory → Nat → Option Byte
  | [], _ => none
  | (k, b) :: rest, a => if k = a then some b else Memory.lookup rest a

/-- `M[a]` with no check. -/
def Memory.read (m : Memory) (a : Nat) : Byte := (m.lookup a).getD (Memory.unlisted a)

/-- Take an address off the list. -/
def Memory.erase : Memory → Nat → Memory
  | [], _ => []
  | (k, b) :: rest, a =>
    if k = a then Memory.erase rest a else (k, b) :: Memory.erase rest a

/-- List an address with its byte, keeping the addresses rising. -/
def Memory.insert : Memory → Nat → Byte → Memory
  | [], a, v => [(a, v)]
  | (k, b) :: rest, a, v =>
    if a < k then (a, v) :: (k, b) :: rest
    else if k = a then (a, v) :: rest
    else (k, b) :: Memory.insert rest a v

/-- The addresses where `M` has real bytes: 0x050 to 0xFFF (R31). -/
abbrev Memory.InRange (a : Nat) : Prop := Config.blockHi < a ∧ a < Config.memSize

/-- `M[a] <- v` with no fault check: a write keeps the canonical form, and outside 0x050 to 0xFFF there
is no byte to change. -/
def Memory.write (m : Memory) (a : Nat) (v : Byte) : Memory :=
  if Memory.InRange a then
    if v = Memory.unlisted a then m.erase a else m.insert a v
  else m

/-- Bytes written in ascending order from an address, with no fault check. -/
def Memory.writes : Memory → Nat → List Byte → Memory
  | m, _, [] => m
  | m, a, b :: bs => Memory.writes (m.write a b) (a + 1) bs

/-- The canonical form, with every listed address above `lo`. -/
def Memory.wfFrom : Nat → Memory → Bool
  | _, [] => true
  | lo, (k, b) :: rest =>
    decide (lo < k) && decide (k < Config.memSize) && (b != Memory.unlisted k) &&
      Memory.wfFrom k rest

/-- The canonical form of memory: addresses strictly rising and inside 0x050 to 0xFFF, and no entry
equal to what an unlisted address reads as. -/
def Memory.wf (m : Memory) : Bool := Memory.wfFrom Config.blockHi m

/-! Ending an instruction. -/

/-- `raise <Fault>(info)`: the step ends with the fault and has no successor state (R222). -/
def raise (f : Fault) : Result := .fault f

/-- End with the state reached, or raise the fault met on the way. -/
def finish : Except Fault State → Result
  | .ok s => .next s
  | .error f => raise f

/-! Program-issued accesses (R65): the address is an unbounded natural number, never wrapped. -/

/-- The checks of a program-issued access, in the order of R66 and R67. -/
def checkAccess (a : Nat) : Except Fault Unit :=
  if a > 0xFFF then .error (.addressOverflow a)
  else if a ≤ Config.blockHi then .error (.privateRegionAccess a)
  else .ok ()

/-- `MemRead(addr, 1)` (R66). -/
def State.memRead (s : State) (a : Nat) : Except Fault Byte :=
  match checkAccess a with
  | .ok _ => .ok (s.mem.read a)
  | .error f => .error f

/-- `MemWrite(addr, 1, v)` (R67). -/
def State.memWrite (s : State) (a : Nat) (v : Byte) : Except Fault State :=
  match checkAccess a with
  | .ok _ => .ok { s with mem := s.mem.write a v }
  | .error f => .error f

/-- `n` byte reads at `a`, `a + 1`, ... in ascending order (R75), each with its own check. -/
def State.memReads (s : State) (a : Nat) : Nat → Except Fault (List Byte)
  | 0 => .ok []
  | n + 1 =>
    match s.memRead a with
    | .ok b =>
      match State.memReads s (a + 1) n with
      | .ok bs => .ok (b :: bs)
      | .error f => .error f
    | .error f => .error f

/-- Byte writes at `a`, `a + 1`, ... in ascending order (R75), each with its own check. -/
def State.memWrites (s : State) (a : Nat) : List Byte → Except Fault State
  | [] => .ok s
  | b :: bs =>
    match s.memWrite a b with
    | .ok s' => State.memWrites s' (a + 1) bs
    | .error f => .error f

/-! The program counter. -/

/-- `SetPC(v)`: the only way `pc` is written; a value above 0xFFF raises (R125). -/
def State.setPC (s : State) (v : Nat) : Except Fault State :=
  if v > 0xFFF then .error (.addressOverflow v) else .ok { s with pc := BitVec.ofNat 12 v }

/-- `Skip()` (R126). -/
def State.skip (s : State) : Except Fault State := s.setPC (s.pc.toNat + 2)

/-- Skip when the condition holds, else nothing happens (R150). -/
def State.skipIf (s : State) (c : Bool) : Result := if c then finish s.skip else .next s

/-! Registers. -/

/-- `V[x]` -/
def State.reg (s : State) (x : Reg) : Byte := s.v[x.toNat]'x.isLt

/-- `V[x] <- b` -/
def State.setReg (s : State) (x : Reg) (b : Byte) : State :=
  { s with v := s.v.set x.toNat b x.isLt }

/-- `V0` to `VX` as bytes, `V0` first: the `n = X + 1` registers of R213. -/
def State.regsUpTo (s : State) (n : Nat) : List Byte := s.v.toList.take n

/-- `V[k] <- b` for bytes in order from register `k` on; bytes past `VF` are dropped (`FX65` never has
any: R213). -/
def State.setRegsFrom (s : State) (k : Nat) : List Byte → State
  | [] => s
  | b :: bs =>
    if h : k < 16 then State.setRegsFrom { s with v := s.v.set k b h } (k + 1) bs else s

/-! Stack slots (R72): the core's own accesses, checked only through `SP`. -/

/-- The two bytes of a slot in memory order, for a 16-bit value. -/
def slotBytes (v : Word) : Byte × Byte :=
  if Params.stackBigEndian then (v.extractLsb' 8 8, v.extractLsb' 0 8)
  else (v.extractLsb' 0 8, v.extractLsb' 8 8)

/-- The 16-bit value of a slot's two bytes in memory order. -/
def slotWord (b0 b1 : Byte) : Word := if Params.stackBigEndian then b0 ++ b1 else b1 ++ b0

/-- `StackWrite16(sp, v)`: a 12-bit value, its high nibble zero. -/
def State.stackWrite16 (s : State) (sp : Nat) (v : Addr) : State :=
  let b := slotBytes (v.setWidth 16)
  let a := Params.stackSlot sp
  { s with mem := (s.mem.write a b.1).write (a + 1) b.2 }

/-- `StackRead16(sp)`: the 16 bits of a slot. -/
def State.stackRead16 (s : State) (sp : Nat) : Word :=
  let a := Params.stackSlot sp
  slotWord (s.mem.read a) (s.mem.read (a + 1))

/-- The largest `SP` at which a call still has a slot: 252 at the default capacity (R144). -/
def stackLastPush : Nat := 2 * (Params.stackCapacity - 1)

/-! The free value. -/

/-- `draw8()`: the next free byte, and the state that has drawn it (R33 (b), R184, entry 1). -/
def State.draw8 (s : State) : Byte × State :=
  (Config.freeByte s.draws, { s with draws := s.draws + 1 })

end Sys2Proof.Machine
end

