-- ==== Sys2Proof/Machine/Operands.lean ====
section
/-! DEFINITION. The operand forms: key numbers, font digits, BCD digits, the register of a shift, the
random byte's combination, the index register after a transfer. -/

namespace Sys2Proof.Machine

/-- `KeyDown(k)` (R200): bit `k` of `KEYS`; a key number above 15 raises (D17). -/
def State.keyDown (s : State) (k : Byte) : Except Fault Bool :=
  if k.toNat ≥ Config.nkeys then .error (.operandOutOfRange k.toNat)
  else .ok (s.keys.getLsbD k.toNat)

/-- No key is down: `FX0A` has to wait (R207, R224). -/
def State.noKeyDown (s : State) : Bool := s.keys == 0#16

/-- The address of the glyph of a digit 0 to 15 (R211). -/
def glyphAddr (digit : Nat) : Addr := BitVec.ofNat 12 (Config.fontBase + Config.glyphBytes * digit)

/-- The three digits of a byte, hundreds first (R212). -/
def bcdDigits (v : Byte) : List Byte :=
  [BitVec.ofNat 8 (v.toNat / 100), BitVec.ofNat 8 (v.toNat / 10 % 10), BitVec.ofNat 8 (v.toNat % 10)]

/-- The register whose value `8XY6` and `8XYE` shift (R167, R169). -/
def shiftSource (x y : Reg) : Reg := if Params.shiftUsesVy then y else x

/-- The random byte combined with `NN` (R184). -/
def randCombine (r nn : Byte) : Byte :=
  if Params.randBitwiseAnd then r &&& nn else if r ≠ 0#8 ∧ nn ≠ 0#8 then 1#8 else 0#8

/-- `I` after `FX55` or `FX65` moved `n` bytes: the same as before (R213). -/
def State.afterTransfer (s : State) (n : Nat) : State :=
  if Params.loadstoreIncrementsI then { s with i := s.i + BitVec.ofNat 12 n } else s

end Sys2Proof.Machine
end

