-- ==== Sys2Proof/Machine/Flags.lean ====
section
/-! DEFINITION. The flag computations (43_op8_alu.md R160, R165 to R169, R171). The exact result is
computed on unbounded numbers and compared; a flag is the byte 0x01 or 0x00 (R22). -/

namespace Sys2Proof.Machine

/-- A flag as the byte stored in `VF` (R22). -/
def flagByte (f : Bool) : Byte := if f then 1#8 else 0#8

/-- Carry out of bit 7: the unsigned sum exceeds 255 (R165). -/
def carryOut (a b : Byte) : Bool := decide (a.toNat + b.toNat > 255)

/-- Borrow of `a - b`: 1 when a borrow occurs (R166). -/
def borrowOut (a b : Byte) : Bool := decide (a.toNat < b.toNat)

/-- The bit a right shift drops (R167). -/
def shiftedOutRight (a : Byte) : Bool := a.getLsbD 0

/-- The bit a left shift drops (R169). -/
def shiftedOutLeft (a : Byte) : Bool := a.getLsbD 7

/-- Write a result to `V[x]` and a flag to `VF`, the flag last (R160): with `x = VF` the flag is what
remains. -/
def State.setRegFlag (s : State) (x : Reg) (result : Byte) (flag : Bool) : State :=
  if Params.flagWrittenLast then (s.setReg x result).setReg VF (flagByte flag)
  else (s.setReg VF (flagByte flag)).setReg x result

/-- `VF` after `8XY0` to `8XY3`: not written (R161 to R164). Were it written (D14), the spec names no
value for it, so it would be a free value. -/
def State.afterLogic (s : State) : State :=
  if Params.logicWritesVf then s.draw8.2.setReg VF s.draw8.1 else s

end Sys2Proof.Machine
end

