-- ==== Sys2Proof/Machine/Display.lean ====
section
/-! DEFINITION. The display component and the drawing of a sprite (45_opD_draw.md). -/

namespace Sys2Proof.Machine

/-- `FB[y mod 32][x mod 64]`: coordinates wrap (R192). -/
def Framebuffer.pixel (fb : Framebuffer) (x y : Nat) : Bool :=
  (fb[y % 32]'(Nat.mod_lt _ (by decide)))[x % 64]'(Nat.mod_lt _ (by decide))

/-- The framebuffer with one pixel set to a value, coordinates wrapping. -/
def Framebuffer.setPixel (fb : Framebuffer) (x y : Nat) (p : Bool) : Framebuffer :=
  fb.set (y % 32)
    ((fb[y % 32]'(Nat.mod_lt _ (by decide))).set (x % 64) p (Nat.mod_lt _ (by decide)))
    (Nat.mod_lt _ (by decide))

/-- `TogglePixel(x, y)` (R192): whether the pixel was on, and the framebuffer with it flipped. -/
def togglePixel (fb : Framebuffer) (x y : Nat) : Bool × Framebuffer :=
  (fb.pixel x y, fb.setPixel x y (!fb.pixel x y))

/-- `ClearDisplay()` (R191). -/
def clearDisplay (_fb : Framebuffer) : Framebuffer := blankDisplay

/-- Whether column `c` (0 to 7) of a sprite row is set: bit 7 is column 0 (R194, D16). -/
def spriteBit (row : Byte) (c : Nat) : Bool :=
  row.getLsbD (if Params.spriteMsbLeft then 7 - c else c)

/-- The framebuffer while a sprite is drawn, and `hit`: whether a pixel turned off so far (R194). -/
abbrev Canvas := Framebuffer × Bool

/-- Column `c` of a row at `(x0, y)`. -/
def drawColumn (row : Byte) (x0 y c : Nat) (d : Canvas) : Canvas :=
  if spriteBit row c then
    let t := togglePixel d.1 (x0 + c) y
    (t.2, d.2 || t.1)
  else d

/-- The first `k` columns of a row, from column 0 up. -/
def drawColumns (row : Byte) (x0 y : Nat) : Nat → Canvas → Canvas
  | 0, d => d
  | k + 1, d => drawColumn row x0 y k (drawColumns row x0 y k d)

/-- The rows of a sprite, top row first, from row `y` of the display down. -/
def drawRows (x0 y : Nat) : List Byte → Canvas → Canvas
  | [], d => d
  | row :: rows, d => drawRows x0 (y + 1) rows (drawColumns row x0 y 8 d)

end Sys2Proof.Machine
end

