-- ==== Sys2Proof/Machine/Alu.lean ====
section
/-! DEFINITION. Family 0x8: register-to-register arithmetic and logic (43_op8_alu.md). Operands are
read from the state before anything is written (R160). -/

namespace Sys2Proof.Machine

/-- `8XY0` LD VX, VY (R161). -/
def execLdVxVy (x y : Reg) (s : State) : Result := .next (s.setReg x (s.reg y)).afterLogic

/-- `8XY1` OR VX, VY (R162). -/
def execOrVxVy (x y : Reg) (s : State) : Result := .next (s.setReg x (s.reg x ||| s.reg y)).afterLogic

/-- `8XY2` AND VX, VY (R163). -/
def execAndVxVy (x y : Reg) (s : State) : Result := .next (s.setReg x (s.reg x &&& s.reg y)).afterLogic

/-- `8XY3` XOR VX, VY (R164). -/
def execXorVxVy (x y : Reg) (s : State) : Result := .next (s.setReg x (s.reg x ^^^ s.reg y)).afterLogic

/-- `8XY4` ADD VX, VY (R165): `VF` is the carry. -/
def execAddVxVy (x y : Reg) (s : State) : Result :=
  .next (s.setRegFlag x (s.reg x + s.reg y) (carryOut (s.reg x) (s.reg y)))

/-- `8XY5` SUB VX, VY (R166): `VF` is the borrow of `VX - VY`. -/
def execSubVxVy (x y : Reg) (s : State) : Result :=
  .next (s.setRegFlag x (s.reg x - s.reg y) (borrowOut (s.reg x) (s.reg y)))

/-- `8XY6` SHR VX (R167): `VF` is the old bit 0. -/
def execShrVx (x y : Reg) (s : State) : Result :=
  let a := s.reg (shiftSource x y)
  .next (s.setRegFlag x (a >>> 1) (shiftedOutRight a))

/-- `8XY7` SUBN VX, VY (R168): `VF` is the borrow of `VY - VX`. -/
def execSubnVxVy (x y : Reg) (s : State) : Result :=
  .next (s.setRegFlag x (s.reg y - s.reg x) (borrowOut (s.reg y) (s.reg x)))

/-- `8XYE` SHL VX (R169): `VF` is the old bit 7. -/
def execShlVx (x y : Reg) (s : State) : Result :=
  let a := s.reg (shiftSource x y)
  .next (s.setRegFlag x (a <<< 1) (shiftedOutLeft a))

end Sys2Proof.Machine
end

