-- ==== Sys2Proof/Machine/Draw.lean ====
section
/-! DEFINITION. Family 0xD: draw a sprite (45_opD_draw.md R194). -/

namespace Sys2Proof.Machine

/-- `DXYN` DRW VX, VY, N (R194): the position is read first, `VF` is written last, on every
execution. Reading all rows before drawing gives the same outcome as reading each in turn, since
drawing changes no memory and a fault leaves no state (entry 24). -/
def execDrwVxVyN (x y : Reg) (n : Nibble) (s : State) : Result :=
  match s.memReads s.i.toNat n.toNat with
  | .error f => raise f
  | .ok rows =>
    let d := drawRows ((s.reg x).toNat % 64) ((s.reg y).toNat % 32) rows (s.fb, false)
    .next ({ s with fb := d.1 }.setReg VF (flagByte d.2))

end Sys2Proof.Machine
end

