-- ==== Sys2Proof/Machine/Flow.lean ====
section
/-! DEFINITION. Families 0x0, 0x1, 0x2: clear, return, jump, call (41_op0_op2_flow.md). In every
meaning `s.pc` is already the address of the following instruction (R122). -/

namespace Sys2Proof.Machine

/-- `00E0` CLS (R141). -/
def execCls (s : State) : Result := .next { s with fb := clearDisplay s.fb }

/-- `00EE` RET (R142). -/
def execRet (s : State) : Result :=
  if s.sp.toNat < 2 then raise (.addressOverflow s.sp.toNat)
  else
    let s' := { s with sp := s.sp - 2#8 }
    finish (s'.setPC (s'.stackRead16 s'.sp.toNat).toNat)

/-- `1NNN` JP NNN (R143). -/
def execJpNnn (nnn : Addr) (s : State) : Result := finish (s.setPC nnn.toNat)

/-- `2NNN` CALL NNN (R144). -/
def execCallNnn (nnn : Addr) (s : State) : Result :=
  if s.sp.toNat > stackLastPush then raise (.addressOverflow s.sp.toNat)
  else
    let s' := s.stackWrite16 s.sp.toNat s.pc
    finish ({ s' with sp := s'.sp + 2#8 }.setPC nnn.toNat)

end Sys2Proof.Machine
end

