-- ==== Sys2Proof/Machine/Keys.lean ====
section
/-! DEFINITION. Family 0xE: skip on key state (46_opE_keys.md). -/

namespace Sys2Proof.Machine

/-- `EX9E` SKP VX (R201). -/
def execSkpVx (x : Reg) (s : State) : Result :=
  match s.keyDown (s.reg x) with
  | .error f => raise f
  | .ok down => s.skipIf down

/-- `EXA1` SKNP VX (R202). -/
def execSknpVx (x : Reg) (s : State) : Result :=
  match s.keyDown (s.reg x) with
  | .error f => raise f
  | .ok down => s.skipIf (!down)

end Sys2Proof.Machine
end

