-- ==== Sys2Proof/Machine/Misc.lean ====
section
/-! DEFINITION. Families 0x9 to 0xC: skip, index load, indexed jump, random (44_op9_opC_misc.md). -/

namespace Sys2Proof.Machine

/-- `9XYN` SNE VX, VY (R181): `N` is not examined (R99). -/
def execSneVxVy (x y : Reg) (_n : Nibble) (s : State) : Result := s.skipIf (s.reg x != s.reg y)

/-- `ANNN` LD I, NNN (R182). -/
def execLdINnn (nnn : Addr) (s : State) : Result := .next { s with i := nnn }

/-- `BNNN` JP V0, NNN (R183): the unbounded sum goes through `SetPC`. -/
def execJpV0Nnn (nnn : Addr) (s : State) : Result := finish (s.setPC (nnn.toNat + (s.reg 0#4).toNat))

/-- `CXNN` RND VX, NN (R184): the random byte is a free value (entry 1). -/
def execRndVxNn (x : Reg) (nn : Byte) (s : State) : Result :=
  let d := s.draw8
  .next (d.2.setReg x (randCombine d.1 nn))

end Sys2Proof.Machine
end

