-- ==== Sys2Proof/Machine/SkipLoad.lean ====
section
/-! DEFINITION. Families 0x3 to 0x7: skips, load and add immediate (42_op3_op7_skip_load.md). -/

namespace Sys2Proof.Machine

/-- `3XNN` SE VX, NN (R151). -/
def execSeVxNn (x : Reg) (nn : Byte) (s : State) : Result := s.skipIf (s.reg x == nn)

/-- `4XNN` SNE VX, NN (R152). -/
def execSneVxNn (x : Reg) (nn : Byte) (s : State) : Result := s.skipIf (s.reg x != nn)

/-- `5XYN` SE VX, VY (R153): `N` is not examined (R99). -/
def execSeVxVy (x y : Reg) (_n : Nibble) (s : State) : Result := s.skipIf (s.reg x == s.reg y)

/-- `6XNN` LD VX, NN (R154). -/
def execLdVxNn (x : Reg) (nn : Byte) (s : State) : Result := .next (s.setReg x nn)

/-- `7XNN` ADD VX, NN (R155): modulo 256, no flag. -/
def execAddVxNn (x : Reg) (nn : Byte) (s : State) : Result := .next (s.setReg x (s.reg x + nn))

end Sys2Proof.Machine
end

