-- ==== Sys2Proof/Machine/TimersMemory.lean ====
section
/-! DEFINITION. Family 0xF: timers, key wait, index arithmetic, BCD, register store and load
(47_opF_timers_memory.md). -/

namespace Sys2Proof.Machine

/-- `FX07` LD VX, DT (R206). -/
def execLdVxDt (x : Reg) (s : State) : Result := .next (s.setReg x s.dt)

/-- `FX0A` LD VX, K (R207): with no key down the fetch advance is undone and the step reports
`AwaitingKey` (`stepStatus`); else the latch's value goes to `VX`. -/
def execLdVxK (x : Reg) (s : State) : Result :=
  if s.noKeyDown then finish (s.setPC (s.pc.toNat - 2))
  else .next (s.setReg x (Params.keywaitValue s.keys))

/-- `FX15` LD DT, VX (R208). -/
def execLdDtVx (x : Reg) (s : State) : Result := .next { s with dt := s.reg x }

/-- `FX18` LD ST, VX (R209). -/
def execLdStVx (x : Reg) (s : State) : Result := .next { s with st := s.reg x }

/-- `FX1E` ADD I, VX (R210): modulo 4096, no flag. -/
def execAddIVx (x : Reg) (s : State) : Result := .next { s with i := s.i + (s.reg x).setWidth 12 }

/-- `FX29` LD F, VX (R211). -/
def execLdFVx (x : Reg) (s : State) : Result :=
  if (s.reg x).toNat ≥ Config.glyphs then raise (.operandOutOfRange (s.reg x).toNat)
  else .next { s with i := glyphAddr (s.reg x).toNat }

/-- `FX33` LD B, VX (R212). -/
def execLdBVx (x : Reg) (s : State) : Result := finish (s.memWrites s.i.toNat (bcdDigits (s.reg x)))

/-- `FX55` LD [I], VX (R214): `V0` to `VX` inclusive (R213). -/
def execLdMemVx (x : Reg) (s : State) : Result :=
  match s.memWrites s.i.toNat (s.regsUpTo (x.toNat + 1)) with
  | .error f => raise f
  | .ok s' => .next (s'.afterTransfer (x.toNat + 1))

/-- `FX65` LD VX, [I] (R215): `V0` to `VX` inclusive (R213). -/
def execLdVxMem (x : Reg) (s : State) : Result :=
  match s.memReads s.i.toNat (x.toNat + 1) with
  | .error f => raise f
  | .ok bs => .next ((s.setRegsFrom 0 bs).afterTransfer (x.toNat + 1))

end Sys2Proof.Machine
end

