-- ==== Sys2Proof/Syntax.lean ====
section
/-! DEFINITION. The instructions: one constructor per row of `spec/opcode_table.json` (30_encoding.md
R96), in the table's order. A constructor carries every field its pattern names, the ignored ones of
`5XYN`, `9XYN` (N, R99), `8XY6` and `8XYE` (Y, R100) too, so that no bit of a word is dropped. -/

namespace Sys2Proof

inductive Instr where
  /-- `00E0` CLS (R141) -/
  | cls
  /-- `00EE` RET (R142) -/
  | ret
  /-- `1NNN` JP NNN (R143) -/
  | jpNnn (nnn : Addr)
  /-- `2NNN` CALL NNN (R144) -/
  | callNnn (nnn : Addr)
  /-- `3XNN` SE VX, NN (R151) -/
  | seVxNn (x : Reg) (nn : Byte)
  /-- `4XNN` SNE VX, NN (R152) -/
  | sneVxNn (x : Reg) (nn : Byte)
  /-- `5XYN` SE VX, VY (R153); `n` is not examined (R99) -/
  | seVxVy (x y : Reg) (n : Nibble)
  /-- `6XNN` LD VX, NN (R154) -/
  | ldVxNn (x : Reg) (nn : Byte)
  /-- `7XNN` ADD VX, NN (R155) -/
  | addVxNn (x : Reg) (nn : Byte)
  /-- `8XY0` LD VX, VY (R161) -/
  | ldVxVy (x y : Reg)
  /-- `8XY1` OR VX, VY (R162) -/
  | orVxVy (x y : Reg)
  /-- `8XY2` AND VX, VY (R163) -/
  | andVxVy (x y : Reg)
  /-- `8XY3` XOR VX, VY (R164) -/
  | xorVxVy (x y : Reg)
  /-- `8XY4` ADD VX, VY (R165) -/
  | addVxVy (x y : Reg)
  /-- `8XY5` SUB VX, VY (R166) -/
  | subVxVy (x y : Reg)
  /-- `8XY6` SHR VX (R167); `y` is encoded but not used (R100) -/
  | shrVx (x y : Reg)
  /-- `8XY7` SUBN VX, VY (R168) -/
  | subnVxVy (x y : Reg)
  /-- `8XYE` SHL VX (R169); `y` is encoded but not used (R100) -/
  | shlVx (x y : Reg)
  /-- `9XYN` SNE VX, VY (R181); `n` is not examined (R99) -/
  | sneVxVy (x y : Reg) (n : Nibble)
  /-- `ANNN` LD I, NNN (R182) -/
  | ldINnn (nnn : Addr)
  /-- `BNNN` JP V0, NNN (R183) -/
  | jpV0Nnn (nnn : Addr)
  /-- `CXNN` RND VX, NN (R184) -/
  | rndVxNn (x : Reg) (nn : Byte)
  /-- `DXYN` DRW VX, VY, N (R194) -/
  | drwVxVyN (x y : Reg) (n : Nibble)
  /-- `EX9E` SKP VX (R201) -/
  | skpVx (x : Reg)
  /-- `EXA1` SKNP VX (R202) -/
  | sknpVx (x : Reg)
  /-- `FX07` LD VX, DT (R206) -/
  | ldVxDt (x : Reg)
  /-- `FX0A` LD VX, K (R207) -/
  | ldVxK (x : Reg)
  /-- `FX15` LD DT, VX (R208) -/
  | ldDtVx (x : Reg)
  /-- `FX18` LD ST, VX (R209) -/
  | ldStVx (x : Reg)
  /-- `FX1E` ADD I, VX (R210) -/
  | addIVx (x : Reg)
  /-- `FX29` LD F, VX (R211) -/
  | ldFVx (x : Reg)
  /-- `FX33` LD B, VX (R212) -/
  | ldBVx (x : Reg)
  /-- `FX55` LD [I], VX (R214) -/
  | ldMemVx (x : Reg)
  /-- `FX65` LD VX, [I] (R215) -/
  | ldVxMem (x : Reg)
  deriving DecidableEq, Repr

end Sys2Proof
end

