-- ==== Sys2Proof/WellFormed.lean ====
section
/-! DEFINITION. Well-formed instructions: the canonical ones, which are the only ones an assembler
emits (30_encoding.md R99, R103). Every operand's range is already in its type (R94). An instruction
that is not well-formed still decodes and executes, exactly as its canonical form (R99, R100): no
check of the machine refuses it. -/

namespace Sys2Proof

/-- `SE Vx, Vy` and `SNE Vx, Vy` assemble with `N = 0`, `SHR Vx` and `SHL Vx` with `Y = 0` (R103). -/
def Instr.wellFormed : Instr → Bool
  | .seVxVy _ _ n => n == 0
  | .sneVxVy _ _ n => n == 0
  | .shrVx _ y => y == 0
  | .shlVx _ y => y == 0
  | .cls => true
  | .ret => true
  | .jpNnn _ => true
  | .callNnn _ => true
  | .seVxNn _ _ => true
  | .sneVxNn _ _ => true
  | .ldVxNn _ _ => true
  | .addVxNn _ _ => true
  | .ldVxVy _ _ => true
  | .orVxVy _ _ => true
  | .andVxVy _ _ => true
  | .xorVxVy _ _ => true
  | .addVxVy _ _ => true
  | .subVxVy _ _ => true
  | .subnVxVy _ _ => true
  | .ldINnn _ => true
  | .jpV0Nnn _ => true
  | .rndVxNn _ _ => true
  | .drwVxVyN _ _ _ => true
  | .skpVx _ => true
  | .sknpVx _ => true
  | .ldVxDt _ => true
  | .ldVxK _ => true
  | .ldDtVx _ => true
  | .ldStVx _ => true
  | .addIVx _ => true
  | .ldFVx _ => true
  | .ldBVx _ => true
  | .ldMemVx _ => true
  | .ldVxMem _ => true

/-- The canonical form of an instruction: its ignored fields zero (R99, R103). -/
def Instr.canonical : Instr → Instr
  | .seVxVy x y _ => .seVxVy x y 0
  | .sneVxVy x y _ => .sneVxVy x y 0
  | .shrVx x _ => .shrVx x 0
  | .shlVx x _ => .shlVx x 0
  | i => i

end Sys2Proof
end

