-- ==== Sys2Proof/Decode.lean ====
section
/-! DEFINITION. Decode and encode (30_encoding.md). Decode is total on any word (R97) and on any list
of bytes; a word outside the 34 rows is rejected by the name of its family (R98). The encoder is
written from the same table (R91, R96) and places every field, the ignored ones too. -/

namespace Sys2Proof

/-- Why a word is no instruction. Each constructor but `truncated` is one row of R98; the machine
answers each of them with the status `UnsupportedOpcode` and goes on (R124). -/
inductive Reject where
  /-- `0NNN` with `NNN` neither 0x0E0 nor 0x0EE: raised by `decodeFamily0`. Safe. -/
  | family0 (nnn : Addr)
  /-- `8XYN` with `N` in 8 to D or F (R170): raised by `decodeFamily8`. Safe. -/
  | family8 (n : Nibble)
  /-- `EXNN` with `NN` neither 0x9E nor 0xA1 (R203): raised by `decodeFamilyE`. Safe. -/
  | familyE (nn : Byte)
  /-- `FXNN` with `NN` outside the nine (R205): raised by `decodeFamilyF`. Safe. -/
  | familyF (nn : Byte)
  /-- `5XYN` or `9XYN` with `N` not 0, only if `IGNORE_LOW_NIBBLE_5_9` were false (R99); never raised
  at the spec's default. Safe. -/
  | lowNibble (n : Nibble)
  /-- Fewer than two bytes: no 16-bit word is there (R90). The machine's fetch never gives this. Safe. -/
  | truncated
  deriving DecidableEq, Repr

/-! The six fields of a word (R91, R92). -/

/-- `op = w[15:12]` -/
def opField (w : Word) : Nibble := w.extractLsb' 12 4
/-- `X = w[11:8]` -/
def xField (w : Word) : Reg := w.extractLsb' 8 4
/-- `Y = w[7:4]` -/
def yField (w : Word) : Reg := w.extractLsb' 4 4
/-- `N = w[3:0]` -/
def nField (w : Word) : Nibble := w.extractLsb' 0 4
/-- `NN = w[7:0]` -/
def nnField (w : Word) : Byte := w.extractLsb' 0 8
/-- `NNN = w[11:0]` -/
def nnnField (w : Word) : Addr := w.extractLsb' 0 12

/-- Family 0x0 dispatches on the whole `NNN` (R97). -/
def decodeFamily0 (nnn : Addr) : Except Reject Instr :=
  if nnn = 0x0E0#12 then .ok .cls
  else if nnn = 0x0EE#12 then .ok .ret
  else .error (.family0 nnn)

/-- Family 0x8 dispatches on `N` (R97). -/
def decodeFamily8 (x y : Reg) (n : Nibble) : Except Reject Instr :=
  if n = 0x0#4 then .ok (.ldVxVy x y)
  else if n = 0x1#4 then .ok (.orVxVy x y)
  else if n = 0x2#4 then .ok (.andVxVy x y)
  else if n = 0x3#4 then .ok (.xorVxVy x y)
  else if n = 0x4#4 then .ok (.addVxVy x y)
  else if n = 0x5#4 then .ok (.subVxVy x y)
  else if n = 0x6#4 then .ok (.shrVx x y)
  else if n = 0x7#4 then .ok (.subnVxVy x y)
  else if n = 0xE#4 then .ok (.shlVx x y)
  else .error (.family8 n)

/-- Family 0xE dispatches on `NN` (R97). -/
def decodeFamilyE (x : Reg) (nn : Byte) : Except Reject Instr :=
  if nn = 0x9E#8 then .ok (.skpVx x)
  else if nn = 0xA1#8 then .ok (.sknpVx x)
  else .error (.familyE nn)

/-- Family 0xF dispatches on `NN` (R97). -/
def decodeFamilyF (x : Reg) (nn : Byte) : Except Reject Instr :=
  if nn = 0x07#8 then .ok (.ldVxDt x)
  else if nn = 0x0A#8 then .ok (.ldVxK x)
  else if nn = 0x15#8 then .ok (.ldDtVx x)
  else if nn = 0x18#8 then .ok (.ldStVx x)
  else if nn = 0x1E#8 then .ok (.addIVx x)
  else if nn = 0x29#8 then .ok (.ldFVx x)
  else if nn = 0x33#8 then .ok (.ldBVx x)
  else if nn = 0x55#8 then .ok (.ldMemVx x)
  else if nn = 0x65#8 then .ok (.ldVxMem x)
  else .error (.familyF nn)

/-- Families 0x5 and 0x9: the low nibble is not examined (R99, D22, entry 17). -/
def decodeLowNibble (n : Nibble) (i : Instr) : Except Reject Instr :=
  if n = 0x0#4 ∨ Machine.Params.ignoreLowNibble59 = true then .ok i else .error (.lowNibble n)

/-- `Decode(w)` (R97): the 16-way primary dispatch is exhaustive, so the last family needs no test. -/
def decodeWord (w : Word) : Except Reject Instr :=
  let op := opField w
  let x := xField w
  let y := yField w
  let n := nField w
  let nn := nnField w
  let nnn := nnnField w
  if op = 0x0#4 then decodeFamily0 nnn
  else if op = 0x1#4 then .ok (.jpNnn nnn)
  else if op = 0x2#4 then .ok (.callNnn nnn)
  else if op = 0x3#4 then .ok (.seVxNn x nn)
  else if op = 0x4#4 then .ok (.sneVxNn x nn)
  else if op = 0x5#4 then decodeLowNibble n (.seVxVy x y n)
  else if op = 0x6#4 then .ok (.ldVxNn x nn)
  else if op = 0x7#4 then .ok (.addVxNn x nn)
  else if op = 0x8#4 then decodeFamily8 x y n
  else if op = 0x9#4 then decodeLowNibble n (.sneVxVy x y n)
  else if op = 0xA#4 then .ok (.ldINnn nnn)
  else if op = 0xB#4 then .ok (.jpV0Nnn nnn)
  else if op = 0xC#4 then .ok (.rndVxNn x nn)
  else if op = 0xD#4 then .ok (.drwVxVyN x y n)
  else if op = 0xE#4 then decodeFamilyE x nn
  else decodeFamilyF x nn

/-- The word of two bytes: the byte at the lower address is the high byte (R68, R70). -/
def wordOfBytes (b0 b1 : Byte) : Word := b0 ++ b1

/-- Decode an instruction from bytes in memory order, with the bytes after it. -/
def decode : List Byte → Except Reject (Instr × List Byte)
  | b0 :: b1 :: rest => (decodeWord (wordOfBytes b0 b1)).map fun i => (i, rest)
  | [_] => .error .truncated
  | [] => .error .truncated

/-- The two bytes of a word in memory order: high byte first (R70, R103). -/
def bytesOfWord (w : Word) : List Byte := [w.extractLsb' 8 8, w.extractLsb' 0 8]

/-- `tNNN` (R93). -/
def wordNnn (t : Nibble) (nnn : Addr) : Word := t ++ nnn
/-- `tXNN` (R93); with `NN` a secondary opcode it is the format `tXss` too. -/
def wordXnn (t : Nibble) (x : Reg) (nn : Byte) : Word := (t ++ x : BitVec 8) ++ nn
/-- `tXYs` (R93). -/
def wordXys (t : Nibble) (x y : Reg) (s : Nibble) : Word := (t ++ x : BitVec 8) ++ (y ++ s : BitVec 8)

/-- The word of an instruction (R96, R103). -/
def encode : Instr → Word
  | .cls => 0x00E0#16
  | .ret => 0x00EE#16
  | .jpNnn nnn => wordNnn 0x1#4 nnn
  | .callNnn nnn => wordNnn 0x2#4 nnn
  | .seVxNn x nn => wordXnn 0x3#4 x nn
  | .sneVxNn x nn => wordXnn 0x4#4 x nn
  | .seVxVy x y n => wordXys 0x5#4 x y n
  | .ldVxNn x nn => wordXnn 0x6#4 x nn
  | .addVxNn x nn => wordXnn 0x7#4 x nn
  | .ldVxVy x y => wordXys 0x8#4 x y 0x0#4
  | .orVxVy x y => wordXys 0x8#4 x y 0x1#4
  | .andVxVy x y => wordXys 0x8#4 x y 0x2#4
  | .xorVxVy x y => wordXys 0x8#4 x y 0x3#4
  | .addVxVy x y => wordXys 0x8#4 x y 0x4#4
  | .subVxVy x y => wordXys 0x8#4 x y 0x5#4
  | .shrVx x y => wordXys 0x8#4 x y 0x6#4
  | .subnVxVy x y => wordXys 0x8#4 x y 0x7#4
  | .shlVx x y => wordXys 0x8#4 x y 0xE#4
  | .sneVxVy x y n => wordXys 0x9#4 x y n
  | .ldINnn nnn => wordNnn 0xA#4 nnn
  | .jpV0Nnn nnn => wordNnn 0xB#4 nnn
  | .rndVxNn x nn => wordXnn 0xC#4 x nn
  | .drwVxVyN x y n => wordXys 0xD#4 x y n
  | .skpVx x => wordXnn 0xE#4 x 0x9E#8
  | .sknpVx x => wordXnn 0xE#4 x 0xA1#8
  | .ldVxDt x => wordXnn 0xF#4 x 0x07#8
  | .ldVxK x => wordXnn 0xF#4 x 0x0A#8
  | .ldDtVx x => wordXnn 0xF#4 x 0x15#8
  | .ldStVx x => wordXnn 0xF#4 x 0x18#8
  | .addIVx x => wordXnn 0xF#4 x 0x1E#8
  | .ldFVx x => wordXnn 0xF#4 x 0x29#8
  | .ldBVx x => wordXnn 0xF#4 x 0x33#8
  | .ldMemVx x => wordXnn 0xF#4 x 0x55#8
  | .ldVxMem x => wordXnn 0xF#4 x 0x65#8

/-- The bytes of an instruction as they lie in memory (R103). -/
def encodeBytes (i : Instr) : List Byte := bytesOfWord (encode i)

/-- The mask of an instruction's row of R96. -/
def Instr.mask : Instr → Word
  | .cls => 0xFFFF#16
  | .ret => 0xFFFF#16
  | .jpNnn _ => 0xF000#16
  | .callNnn _ => 0xF000#16
  | .seVxNn _ _ => 0xF000#16
  | .sneVxNn _ _ => 0xF000#16
  | .seVxVy _ _ _ => 0xF000#16
  | .ldVxNn _ _ => 0xF000#16
  | .addVxNn _ _ => 0xF000#16
  | .ldVxVy _ _ => 0xF00F#16
  | .orVxVy _ _ => 0xF00F#16
  | .andVxVy _ _ => 0xF00F#16
  | .xorVxVy _ _ => 0xF00F#16
  | .addVxVy _ _ => 0xF00F#16
  | .subVxVy _ _ => 0xF00F#16
  | .shrVx _ _ => 0xF00F#16
  | .subnVxVy _ _ => 0xF00F#16
  | .shlVx _ _ => 0xF00F#16
  | .sneVxVy _ _ _ => 0xF000#16
  | .ldINnn _ => 0xF000#16
  | .jpV0Nnn _ => 0xF000#16
  | .rndVxNn _ _ => 0xF000#16
  | .drwVxVyN _ _ _ => 0xF000#16
  | .skpVx _ => 0xF0FF#16
  | .sknpVx _ => 0xF0FF#16
  | .ldVxDt _ => 0xF0FF#16
  | .ldVxK _ => 0xF0FF#16
  | .ldDtVx _ => 0xF0FF#16
  | .ldStVx _ => 0xF0FF#16
  | .addIVx _ => 0xF0FF#16
  | .ldFVx _ => 0xF0FF#16
  | .ldBVx _ => 0xF0FF#16
  | .ldMemVx _ => 0xF0FF#16
  | .ldVxMem _ => 0xF0FF#16

/-- The `match` of an instruction's row of R96. -/
def Instr.matchBits : Instr → Word
  | .cls => 0x00E0#16
  | .ret => 0x00EE#16
  | .jpNnn _ => 0x1000#16
  | .callNnn _ => 0x2000#16
  | .seVxNn _ _ => 0x3000#16
  | .sneVxNn _ _ => 0x4000#16
  | .seVxVy _ _ _ => 0x5000#16
  | .ldVxNn _ _ => 0x6000#16
  | .addVxNn _ _ => 0x7000#16
  | .ldVxVy _ _ => 0x8000#16
  | .orVxVy _ _ => 0x8001#16
  | .andVxVy _ _ => 0x8002#16
  | .xorVxVy _ _ => 0x8003#16
  | .addVxVy _ _ => 0x8004#16
  | .subVxVy _ _ => 0x8005#16
  | .shrVx _ _ => 0x8006#16
  | .subnVxVy _ _ => 0x8007#16
  | .shlVx _ _ => 0x800E#16
  | .sneVxVy _ _ _ => 0x9000#16
  | .ldINnn _ => 0xA000#16
  | .jpV0Nnn _ => 0xB000#16
  | .rndVxNn _ _ => 0xC000#16
  | .drwVxVyN _ _ _ => 0xD000#16
  | .skpVx _ => 0xE09E#16
  | .sknpVx _ => 0xE0A1#16
  | .ldVxDt _ => 0xF007#16
  | .ldVxK _ => 0xF00A#16
  | .ldDtVx _ => 0xF015#16
  | .ldStVx _ => 0xF018#16
  | .addIVx _ => 0xF01E#16
  | .ldFVx _ => 0xF029#16
  | .ldBVx _ => 0xF033#16
  | .ldMemVx _ => 0xF055#16
  | .ldVxMem _ => 0xF065#16

/-- The word of `nbits` bits numbered as `spec/opcode_table.json` numbers them: every bit above
`nbits` is 0. -/
def tableWord (nbits w : Nat) : Word := BitVec.ofNat 16 (w % 2 ^ nbits)

/-- The instruction the decoder reads from a word numbered as `spec/opcode_table.json` numbers it:
laid out high byte first, as the hardware stores it (R70), and decoded. -/
def decodeTableWord (nbits w : Nat) : Option Instr :=
  match decode (bytesOfWord (tableWord nbits w)) with
  | .ok (i, _) => some i
  | .error _ => none

end Sys2Proof
end

