-- ==== Sys2Proof/Machine/Fetch.lean ====
section
/-! DEFINITION. The fetch (40_cycle.md R121 to R123), the end of a step on an unsupported word (R124),
and the placing of a word where the next fetch reads it. -/

namespace Sys2Proof.Machine

/-- FETCH (R121): the two bytes at `pc`, high byte first (R68, R70), and the state with `pc` advanced by
2. The checks come in the order of R123: first byte, second byte, advance. -/
def State.fetch (s : State) : Except Fault (Word × State) :=
  match s.memRead s.pc.toNat with
  | .error f => .error f
  | .ok b0 =>
    match s.memRead (s.pc.toNat + 1) with
    | .error f => .error f
    | .ok b1 =>
      match s.setPC (s.pc.toNat + 2) with
      | .error f => .error f
      | .ok s' => .ok (wordOfBytes b0 b1, s')

/-- The end of a step whose word is `Unsupported`: nothing changes beyond the fetch advance (R124, R101).
The core is left runnable. -/
def unsupported (fetched : State) : Result := .next fetched

/-- Where an instruction can execute: at 0x050 to 0xFFD (R123, R125, R266). -/
abbrev fetchable (pc : Addr) : Prop := 0x04F < pc.toNat ∧ pc.toNat ≤ 0xFFD

/-- The word stored at `pc`, high byte first. From a `pc` at which no instruction can execute, `pc` is
first set to `RESET_PC` (entry 26). -/
def State.placeWord (s : State) (w : Word) : State :=
  let s' := if fetchable s.pc then s else { s with pc := Params.resetPc }
  let a := s'.pc.toNat
  { s' with mem := (s'.mem.write a (w.extractLsb' 8 8)).write (a + 1) (w.extractLsb' 0 8) }

end Sys2Proof.Machine
end

