-- ==== Sys2Proof/Machine/Step.lean ====
section
/-! DEFINITION. The step (40_cycle.md R121): fetch, decode, execute, as one atomic transition (R127). -/

namespace Sys2Proof.Machine

/-- `Step()` (R121). What it reports to the host beside the outcome is `stepStatus`. -/
def step (s : State) : Host.Outcome State Fault Refusal :=
  match s.fetch with
  | .error f => raise f
  | .ok (w, s') =>
    match decodeWord w with
    | .error _ => unsupported s'
    | .ok i => exec i s'

/-- The state with a word of `nbits` bits, numbered as `spec/opcode_table.json` numbers it, stored where
the next step fetches its instruction. It stands for the host's `Load` (R80, entry 26). -/
def State.withFetchWord (s : State) (nbits w : Nat) : State := s.placeWord (tableWord nbits w)

end Sys2Proof.Machine
end

