-- ==== Sys2Proof/Machine/Status.lean ====
section
/-! DEFINITION. The status a step reports to the host (60_exceptions.md R220, R221). It is an output of
the step, not stored state (R29), so it is a function of the state the step starts from (entry 3). -/

namespace Sys2Proof.Machine

/-- The status set (R220): the first three leave a next state, the last three are terminal. -/
inductive Status where
  | ok
  | unsupportedOpcode
  | awaitingKey
  | addressOverflow
  | privateRegionAccess
  | operandOutOfRange
  deriving DecidableEq, Repr

/-- The numeric code of a hardware status port (R220, D20, entry 23). -/
def Status.code : Status → Nat
  | .ok => 0
  | .unsupportedOpcode => 1
  | .awaitingKey => 2
  | .addressOverflow => 3
  | .privateRegionAccess => 4
  | .operandOutOfRange => 5

/-- The status that reports a fault (R220). -/
def Fault.status : Fault → Status
  | .addressOverflow _ => .addressOverflow
  | .privateRegionAccess _ => .privateRegionAccess
  | .operandOutOfRange _ => .operandOutOfRange

/-- Whether an instruction ends with `return AwaitingKey`: only `FX0A` with no key down (R221, R224). -/
def awaitsKey : Instr → State → Bool
  | .ldVxK _, s => s.noKeyDown
  | _, _ => false

/-- The status of executing an instruction: `Ok` where it reaches the end of its rule (R221). A refused
instruction would have none; no instruction is refused. -/
def instrStatus (i : Instr) (s : State) : Option Status :=
  match exec i s with
  | .next _ => some (if awaitsKey i s then .awaitingKey else .ok)
  | .fault f => some f.status
  | .refused _ => none

/-- The status of a step from a state (R121, R129). -/
def stepStatus (s : State) : Option Status :=
  match s.fetch with
  | .error f => some f.status
  | .ok (w, s') =>
    match decodeWord w with
    | .error _ => some .unsupportedOpcode
    | .ok i => instrStatus i s'

end Sys2Proof.Machine
end

