-- ==== Sys2Proof/Machine/HostOps.lean ====
section
/-! DEFINITION. What the host does around the core, between steps (60_exceptions.md R240): its
operations, its reads, and the order in which they have a meaning. -/

namespace Sys2Proof.Machine

/-- `Reset` (R38, R260): the same state from every prior state. -/
def hostReset (_s : State) : State := State.reset

/-- `Load(bytes)` (R80): at most 3584 bytes from 0x200 up, the rest dropped without an error. -/
def hostLoad (bytes : List Byte) (s : State) : State :=
  { s with mem := s.mem.writes Config.programStart (bytes.take Config.programMax) }

/-- `SetKeys(k)` (R235). -/
def hostSetKeys (k : Word) (s : State) : State := { s with keys := k }

/-- One decrement of a timer: it stops at zero (R233, D19, entry 16). -/
def tick (t : Byte) : Byte := if t = 0#8 then 0#8 else t - 1#8

/-- `TimerTick()` (R233). -/
def hostTimerTick (s : State) : State := { s with dt := tick s.dt, st := tick s.st }

/-- `sound_on` (R236, D29). -/
def soundOn (s : State) : Bool := s.st != 0#8

/-- The host's read of a pixel, `x` below 64 and `y` below 32 (R196). -/
def readPixel (s : State) (x y : Nat) : Bool := s.fb.pixel x y

/-- The host's memory dump (R81): the byte image of the fields the layout settles (R35), the real bytes
of `M` from 0x050 up, and no defined value elsewhere (entry 25). -/
def dumpByte (s : State) (a : Nat) : Option Byte :=
  if a = 0x003 then some s.sp
  else if a = 0x004 then some s.dt
  else if a = 0x005 then some s.st
  else if 0x010 ≤ a ∧ a ≤ 0x01F then some (s.reg (BitVec.ofNat 4 (a - 0x010)))
  else if Memory.InRange a then some (s.mem.read a)
  else none

/-- The host's operations that change the machine (R240). -/
inductive HostOp where
  | reset
  | load (bytes : List Byte)
  | step
  | setKeys (k : Word)
  | timerTick
  deriving DecidableEq, Repr

/-- Where the machine stands in the host's protocol (R240, R261). -/
inductive Session where
  /-- After `Reset` and before the first `Step`: `Load` has its meaning. -/
  | fresh (s : State)
  /-- After the first `Step`: `Load` has none (D25, entry 22). -/
  | running (s : State)
  /-- After a fault: no state is defined, and only `Reset` is (R222, entry 21). -/
  | halted
  deriving DecidableEq, Repr

/-- The state of a session, where there is one. -/
def Session.state? : Session → Option State
  | .fresh s => some s
  | .running s => some s
  | .halted => none

/-- Where a step leads: a fault halts the core until reset (R222). -/
def Session.afterStep : Result → Option Session
  | .next s => some (.running s)
  | .fault _ => some .halted
  | .refused _ => none

/-- One host operation: `none` where the spec gives it no meaning (R222, R240, D25). -/
def Session.act : Session → HostOp → Option Session
  | _, .reset => some (.fresh State.reset)
  | .fresh s, .load bytes => some (.fresh (hostLoad bytes s))
  | .running _, .load _ => none
  | .fresh s, .step => Session.afterStep (step s)
  | .running s, .step => Session.afterStep (step s)
  | .fresh s, .setKeys k => some (.fresh (hostSetKeys k s))
  | .running s, .setKeys k => some (.running (hostSetKeys k s))
  | .fresh s, .timerTick => some (.fresh (hostTimerTick s))
  | .running s, .timerTick => some (.running (hostTimerTick s))
  | .halted, .load _ => none
  | .halted, .step => none
  | .halted, .setKeys _ => none
  | .halted, .timerTick => none

/-- A sequence of host operations. -/
def Session.acts : Session → List HostOp → Option Session
  | c, [] => some c
  | c, op :: ops =>
    match c.act op with
    | some c' => Session.acts c' ops
    | none => none

end Sys2Proof.Machine
end

