-- ==== Sys2Proof/Safety.lean ====
section
/-! DEFINITION. What counts as a safe state and a safe run, in the terms the statements use: the
invariant of R37, the states the host can bring about, and the complete list of raise points (R225 to
R227), written from the spec's tables and not from the meanings. -/

namespace Sys2Proof

open Machine

/-- R37 (a), (b) and the model's own canonical form: `pc` and `I` are below 4096 by their type, `SP` is
even (and so at most 254), and memory lists each byte once, inside 0x050 to 0xFFF. -/
abbrev Machine.State.Inv (s : State) : Prop := s.mem.wf = true ∧ s.sp.toNat % 2 = 0

/-- The states the host can bring the core to from reset by its operations (R240). -/
def Reachable (s : State) : Prop :=
  ∃ ops c, Session.acts (.fresh State.reset) ops = some c ∧ c.state? = some s

/-- `k` steps from a state meet no fault and no refusal. -/
def RunsSafely (k : Nat) (s : State) : Prop := ∃ t : State, Host.Core.run core k s = .next t

/-- `AddressOverflow` for a value above 0xFFF (R125). -/
def overPc (v : Nat) : Option Fault := if v > 0xFFF then some (.addressOverflow v) else none

/-- A taken skip (R150, R225 row 3). -/
def skipFault (taken : Bool) (s : State) : Option Fault :=
  if taken then overPc (s.pc.toNat + 2) else none

/-- `n` bytes accessed from `I` up (R225 rows 8 to 10, R226): inside the interpreter block the first byte
decides, and past the end of memory the first address that does not exist is 0x1000. -/
def dataFault (n : Nat) (s : State) : Option Fault :=
  if n = 0 then none
  else if s.i.toNat ≤ 0x04F then some (.privateRegionAccess s.i.toNat)
  else if s.i.toNat + n > 0x1000 then some (.addressOverflow 0x1000)
  else none

/-- A key instruction: the operand's range before the skip (R227, R229). -/
def keyFault (v : Byte) (taken : Bool) (s : State) : Option Fault :=
  if v.toNat > 15 then some (.operandOutOfRange v.toNat) else skipFault taken s

/-- The 16 bits of the stack slot a return reads, at `0x200 - SP` and `0x201 - SP` (R72, R142). -/
def poppedValue (s : State) : Nat :=
  256 * (s.mem.read (0x200 - s.sp.toNat)).toNat + (s.mem.read (0x201 - s.sp.toNat)).toNat

/-- The raise points of the instructions (R225 rows 3 to 10, R226, R227). -/
def faultOf : Instr → State → Option Fault
  | .ret, s => if s.sp.toNat < 2 then some (.addressOverflow s.sp.toNat) else overPc (poppedValue s)
  | .callNnn _, s => if s.sp.toNat > 252 then some (.addressOverflow s.sp.toNat) else none
  | .seVxNn x nn, s => skipFault (s.reg x == nn) s
  | .sneVxNn x nn, s => skipFault (s.reg x != nn) s
  | .seVxVy x y _, s => skipFault (s.reg x == s.reg y) s
  | .sneVxVy x y _, s => skipFault (s.reg x != s.reg y) s
  | .jpV0Nnn nnn, s => overPc (nnn.toNat + (s.reg 0#4).toNat)
  | .drwVxVyN _ _ n, s => dataFault n.toNat s
  | .skpVx x, s => keyFault (s.reg x) (s.keys.getLsbD (s.reg x).toNat) s
  | .sknpVx x, s => keyFault (s.reg x) (!s.keys.getLsbD (s.reg x).toNat) s
  | .ldFVx x, s => if (s.reg x).toNat > 15 then some (.operandOutOfRange (s.reg x).toNat) else none
  | .ldBVx _, s => dataFault 3 s
  | .ldMemVx x, s => dataFault (x.toNat + 1) s
  | .ldVxMem x, s => dataFault (x.toNat + 1) s
  | .cls, _ => none
  | .jpNnn _, _ => none
  | .ldVxNn _ _, _ => none
  | .addVxNn _ _, _ => none
  | .ldVxVy _ _, _ => none
  | .orVxVy _ _, _ => none
  | .andVxVy _ _, _ => none
  | .xorVxVy _ _, _ => none
  | .addVxVy _ _, _ => none
  | .subVxVy _ _, _ => none
  | .shrVx _ _, _ => none
  | .subnVxVy _ _, _ => none
  | .shlVx _ _, _ => none
  | .ldINnn _, _ => none
  | .rndVxNn _ _, _ => none
  | .ldVxDt _, _ => none
  | .ldVxK _, _ => none
  | .ldDtVx _, _ => none
  | .ldStVx _, _ => none
  | .addIVx _, _ => none

/-- The raise points of the fetch (R123, R225 rows 1 and 2, R226). -/
def fetchFaultOf (s : State) : Option Fault :=
  if s.pc.toNat ≤ 0x04F then some (.privateRegionAccess s.pc.toNat)
  else if s.pc.toNat = 0xFFF then some (.addressOverflow 0x1000)
  else if s.pc.toNat = 0xFFE then some (.addressOverflow 0x1000)
  else none

end Sys2Proof
end

