-- ==== Sys2Proof/Certificates/Slice0/Obligations.lean ====
section
/-! DEFINITION. The statements for the provers. In a statement about `exec`, `s.pc` is the address of the
FOLLOWING instruction, as every instruction rule sees it (40_cycle.md R122); a statement about `step`
starts from the state before the fetch. A state and an instruction that meet the hypotheses of each
statement stand in `Sys2Proof/Tests/Slice0.lean`. -/

open Sys2Proof Sys2Proof.Machine

namespace Sys2Proof.Claims

/-- `t` differs from `s` at most in its `V` registers. -/
def OnlyRegisters (s t : State) : Prop := t = { s with v := t.v }

/-- `t` differs from `s` at most in its memory. -/
def OnlyMemory (s t : State) : Prop := t = { s with mem := t.mem }

/-- Every register but `x` is as before. -/
def OthersSame (x : Reg) (s t : State) : Prop := ∀ r : Reg, r ≠ x → t.reg r = s.reg r

/-- Every register but `x` and `VF` is as before. -/
def OthersSameBarFlag (x : Reg) (s t : State) : Prop :=
  ∀ r : Reg, r ≠ x → r ≠ VF → t.reg r = s.reg r

/-- A flag as a byte: 0x01 or 0x00 (R22). -/
def bit (p : Prop) [Decidable p] : Byte := if p then 0x01#8 else 0x00#8

/-- Apply a change to the next state, if there is one. -/
def mapNext (f : State → State) : Result → Result
  | .next t => .next (f t)
  | .fault e => .fault e
  | .refused e => .refused e

/-- The registers an instruction may write (R21, R22). -/
def writesReg : Instr → Reg → Bool
  | .ldVxNn x _, r | .addVxNn x _, r | .rndVxNn x _, r => r == x
  | .ldVxVy x _, r | .orVxVy x _, r | .andVxVy x _, r | .xorVxVy x _, r => r == x
  | .addVxVy x _, r | .subVxVy x _, r | .subnVxVy x _, r | .shrVx x _, r | .shlVx x _, r =>
    r == x || r == VF
  | .drwVxVyN _ _ _, r => r == VF
  | .ldVxDt x, r | .ldVxK x, r => r == x
  | .ldVxMem x, r => decide (r.toNat ≤ x.toNat)
  | _, _ => false

/-- Where an instruction stores: the first address and the number of bytes (R61), computed from the
state the instruction sees. -/
def storesAt : Instr → State → Option (Nat × Nat)
  | .callNnn _, s => some (Params.stackSlot s.sp.toNat, 2)
  | .ldBVx _, s => some (s.i.toNat, 3)
  | .ldMemVx x, s => some (s.i.toNat, x.toNat + 1)
  | _, _ => none

/-- Whether an instruction may leave `pc` other than at the following instruction (R23). -/
def writesPc : Instr → Bool
  | .ret | .jpNnn _ | .callNnn _ | .jpV0Nnn _ | .ldVxK _ => true
  | .seVxNn _ _ | .sneVxNn _ _ | .seVxVy _ _ _ | .sneVxVy _ _ _ | .skpVx _ | .sknpVx _ => true
  | _ => false

/-- Whether an instruction reads `KEYS` (R28). -/
def readsKeys : Instr → Bool
  | .skpVx _ | .sknpVx _ | .ldVxK _ => true
  | _ => false

/-- Whether the `n`-row sprite at `I` drawn at `(VX, VY)` has a set bit that lands on pixel `(px, py)`:
row `r`, column `c` lands at `((VX + c) mod 64, (VY + r) mod 32)`, bit 7 is column 0 (R194). -/
def spriteCovers (x y : Reg) (n : Nat) (s : State) (px py : Nat) : Bool :=
  (List.range n).any fun r => (List.range 8).any fun c =>
    (s.mem.read (s.i.toNat + r)).getLsbD (7 - c) &&
      decide (((s.reg x).toNat + c) % 64 = px ∧ ((s.reg y).toNat + r) % 32 = py)

/-- Every stack slot in use holds an address below 0x1000: the high nibble of its first byte is zero
(R37 (c), R72). -/
def SlotsHoldAddresses (s : State) : Prop :=
  ∀ k : Nat, 2 * k < s.sp.toNat → (s.mem.read (0x1FE - 2 * k)).toNat < 0x10

/-- Calls one after the other, each at its own following address and to its own target. -/
def callAll : List (Addr × Addr) → State → Result
  | [], s => .next s
  | (following, target) :: rest, s =>
    match exec (.callNnn target) { s with pc := following } with
    | .next t => callAll rest t
    | .fault f => .fault f
    | .refused r => .refused r

/-- Returns one after the other, each reaching the address given for it. -/
def returnAll : List Addr → State → State → Prop
  | [], s, last => s = last
  | back :: rest, s, last => ∃ t, exec .ret s = .next t ∧ t.pc = back ∧ returnAll rest t last

/-- Two states that agree but for the sound timer. -/
def withoutSound (s : State) : State := { s with st := 0#8 }

/-- The sixteen glyphs of the table in R79, five rows each, top row first. -/
def glyphRows : List (List Byte) :=
  [[0xF0, 0x90, 0x90, 0x90, 0xF0], [0x20, 0x60, 0x20, 0x20, 0x70],
   [0xF0, 0x10, 0xF0, 0x80, 0xF0], [0xF0, 0x10, 0xF0, 0x10, 0xF0]] ++
  [[0x90, 0x90, 0xF0, 0x10, 0x10], [0xF0, 0x80, 0xF0, 0x10, 0xF0],
   [0xF0, 0x80, 0xF0, 0x90, 0xF0], [0xF0, 0x10, 0x20, 0x40, 0x40]] ++
  [[0xF0, 0x90, 0xF0, 0x90, 0xF0], [0xF0, 0x90, 0xF0, 0x10, 0xF0],
   [0xF0, 0x90, 0xF0, 0x90, 0x90], [0xE0, 0x90, 0xE0, 0x90, 0xE0]] ++
  [[0xF0, 0x80, 0x80, 0x80, 0xF0], [0xE0, 0x90, 0x90, 0x90, 0xE0],
   [0xF0, 0x80, 0xF0, 0x80, 0xF0], [0xF0, 0x80, 0xF0, 0x80, 0x80]]

/-- The word at `pc`, the byte at the lower address high (R70). -/
def wordAtPc (s : State) : Word := s.mem.read s.pc.toNat ++ s.mem.read (s.pc.toNat + 1)

/-- The bytes an instruction stores, first address first: a call the following address, high byte first
(R72), `FX33` the three digits (R212), `FX55` `V0` to `VX` (R214). -/
def storedBytes : Instr → State → List Byte
  | .callNnn _, s => [BitVec.ofNat 8 (s.pc.toNat / 256), BitVec.ofNat 8 (s.pc.toNat % 256)]
  | .ldBVx x, s =>
    [BitVec.ofNat 8 ((s.reg x).toNat / 100), BitVec.ofNat 8 ((s.reg x).toNat / 10 % 10),
      BitVec.ofNat 8 ((s.reg x).toNat % 10)]
  | .ldMemVx x, s => (List.range (x.toNat + 1)).map fun k => s.reg (BitVec.ofNat 4 k)
  | _, _ => []

/-- The byte at `a` after an instruction: the one stored there, or the one that was there. -/
def byteAfter (i : Instr) (s : State) (a : Nat) : Byte :=
  match storesAt i s with
  | some (base, n) =>
    if base ≤ a ∧ a < base + n then (storedBytes i s).getD (a - base) 0x00#8 else s.mem.read a
  | none => s.mem.read a

end Sys2Proof.Claims

open Sys2Proof.Claims

/-! ## Reset and the invariant -/

/-- R39, with the spec's own decisions D4 (`RESET_PC`), D5 (the display is cleared) and D26 (`FONT`, from
general knowledge): entries 4, 5 and 18. -/
def Obligations.ResetLeavesTheListedState : Prop :=
  (∀ x : Reg, State.reset.reg x = 0x00#8) ∧ State.reset.pc = 0x200#12 ∧ State.reset.i = 0x000#12 ∧
  State.reset.sp = 0x00#8 ∧ State.reset.dt = 0x00#8 ∧ State.reset.st = 0x00#8 ∧
  State.reset.keys = 0x0000#16 ∧
  (∀ x y : Nat, State.reset.fb.pixel x y = false) ∧
  (∀ g r : Nat, g < 16 → r < 5 →
    State.reset.mem.read (0x050 + 5 * g + r) = (glyphRows.getD g []).getD r 0x00#8) ∧
  (∀ a : Nat, 0x0A0 ≤ a → State.reset.mem.read a = 0x00#8)

/-- The invariant (R37 (a), (b) and the model's canonical memory, entry 2) holds at reset. -/
def Obligations.InvariantHoldsAtReset : Prop := State.reset.Inv

/-- R37 (a), (b): every step keeps `SP` even and memory canonical, from any state that has them. -/
def Obligations.StepKeepsTheInvariant : Prop :=
  ∀ s t : State, s.Inv → step s = .next t → t.Inv

/-- R37, R240: the invariant, with the model's canonical memory (entry 2), holds in every state the host can
bring about from reset by any sequence of its operations, in the order `Session` allows them (D25, entry
22). -/
def Obligations.ReachableStatesMeetTheInvariant : Prop := ∀ s : State, Reachable s → s.Inv

/-- R37 (c): an instruction keeps every stack slot in use an address below 0x1000, if it is no `FX33` or
`FX55` that stores into 0x100 to 0x1FF. -/
def Obligations.StackSlotsStayAddresses : Prop :=
  ∀ (i : Instr) (s t : State), s.sp.toNat % 2 = 0 → SlotsHoldAddresses s →
    (∀ a n, (∀ nnn, i ≠ .callNnn nnn) → storesAt i s = some (a, n) → a + n ≤ 0x100 ∨ 0x200 ≤ a) →
    exec i s = .next t → SlotsHoldAddresses t

/-- The canonical form is canonical (entry 2): two canonical memories that read alike are equal data. -/
def Obligations.CanonicalMemoriesThatReadAlikeAreEqual : Prop :=
  ∀ m m' : Memory, m.wf = true → m'.wf = true → (∀ a : Nat, m.read a = m'.read a) → m = m'

/-! ## Encoding -/

/-- R96, R97, R103: decoding the word of any instruction, ignored fields included, gives it back, from the
word and from its bytes in memory order with any bytes after them. -/
def Obligations.DecodeOfEncodeIsTheInstruction : Prop :=
  ∀ (i : Instr) (rest : List Byte),
    decodeWord (encode i) = .ok i ∧ decode (encodeBytes i ++ rest) = .ok (i, rest)

/-- R96, R97: a word that decodes is the word of the instruction it decodes to, and lies in that
instruction's row of the table. -/
def Obligations.EncodeOfDecodeIsTheWord : Prop :=
  ∀ (w : Word) (i : Instr), decodeWord w = .ok i → encode i = w ∧ w &&& i.mask = i.matchBits

/-- R98: the words that are no instruction are exactly those listed. That the low nibble of `5XYN` and
`9XYN` is no ground is the spec's decision D22 (entry 17). -/
def Obligations.UnsupportedWordsAreThoseListed : Prop :=
  ∀ w : Word, (∃ r, decodeWord w = .error r) ↔
    ((opField w = 0x0#4 ∧ nnnField w ≠ 0x0E0#12 ∧ nnnField w ≠ 0x0EE#12) ∨
     (opField w = 0x8#4 ∧ nField w ∈ [0x8#4, 0x9#4, 0xA#4, 0xB#4, 0xC#4, 0xD#4, 0xF#4]) ∨
     (opField w = 0xE#4 ∧ nnField w ≠ 0x9E#8 ∧ nnField w ≠ 0xA1#8) ∨
     (opField w = 0xF#4 ∧ nnField w ∉
       [0x07#8, 0x0A#8, 0x15#8, 0x18#8, 0x1E#8, 0x29#8, 0x33#8, 0x55#8, 0x65#8]))

/-- Words of 30_encoding.md section 6 and of 95_test_vectors.md sections 2 (T1.1, T6.1, TD.1) and 5, one or
more of each format; the low nibble of `5XYN` is the spec's decision D22 (entry 17). -/
def Obligations.SampleWordsDecodeAsTheSpecSays : Prop :=
  decodeWord 0x00E0#16 = .ok .cls ∧ decodeWord 0x1234#16 = .ok (.jpNnn 0x234#12) ∧
  decodeWord 0x83A4#16 = .ok (.addVxVy 0x3#4 0xA#4) ∧
  decodeWord 0x5AB7#16 = .ok (.seVxVy 0xA#4 0xB#4 0x7#4) ∧
  decodeWord 0x6A2B#16 = .ok (.ldVxNn 0xA#4 0x2B#8) ∧
  decodeWord 0xD121#16 = .ok (.drwVxVyN 0x1#4 0x2#4 0x1#4) ∧
  decodeWord 0xE19E#16 = .ok (.skpVx 0x1#4) ∧ decodeWord 0xF155#16 = .ok (.ldMemVx 0x1#4) ∧
  decodeWord 0x01E0#16 = .error (.family0 0x1E0#12) ∧ decodeWord 0x8AB8#16 = .error (.family8 0x8#4) ∧
  decodeWord 0xE19F#16 = .error (.familyE 0x9F#8) ∧ decodeWord 0xFFFF#16 = .error (.familyF 0xFF#8)

/-- R99, R100: an instruction executes exactly as its canonical form. That the low nibble of `5XYN` and
`9XYN` and the `Y` of a shift are ignored are the spec's decisions D22 and D13: entries 17 and 11. -/
def Obligations.IgnoredFieldsChangeNothing : Prop :=
  ∀ (i : Instr) (s : State), exec i s = exec i.canonical s

/-! ## The step -/

/-- R122, R70: where the two bytes at `pc`, the one at the lower address high, are the word of an
instruction, the step is that instruction executed with `pc` advanced by 2. An instruction can execute at
0x050 to 0xFFD. -/
def Obligations.StepRunsTheDecodedInstruction : Prop :=
  ∀ (s : State) (i : Instr), 0x050 ≤ s.pc.toNat → s.pc.toNat ≤ 0xFFD →
    decodeWord (s.mem.read s.pc.toNat ++ s.mem.read (s.pc.toNat + 1)) = .ok i →
    step s = exec i { s with pc := s.pc + 2#12 }

/-- R124: on an unsupported word the step reports `UnsupportedOpcode`, and its next state is the state
before it with `pc` advanced by 2. -/
def Obligations.UnsupportedWordAdvancesThePcOnly : Prop :=
  ∀ (s : State) (r : Reject), 0x050 ≤ s.pc.toNat → s.pc.toNat ≤ 0xFFD →
    decodeWord (s.mem.read s.pc.toNat ++ s.mem.read (s.pc.toNat + 1)) = .error r →
    step s = .next { s with pc := s.pc + 2#12 } ∧ stepStatus s = some .unsupportedOpcode

/-- R123, with the spec's decisions D3 and D6 (entries 19 and 20): where no instruction can execute, the
step faults whatever the bytes there are. -/
def Obligations.FetchFaultsWhereNoInstructionCanExecute : Prop :=
  ∀ s : State,
    (s.pc.toNat ≤ 0x04F → step s = .fault (.privateRegionAccess s.pc.toNat)) ∧
    (0xFFE ≤ s.pc.toNat → step s = .fault (.addressOverflow 0x1000))

/-- R220 to R224, R130: every step reports exactly one status and none is refused. A fault reports its own
name. A step with a next state reports `Ok` exactly where the word at `pc` is an instruction that does not
wait, `UnsupportedOpcode` exactly where it is none, with only `pc` advanced, and `AwaitingKey` exactly where
it is an `FX0A` with no key down, with the state as it was (D10, entry 6). The six codes are the spec's
decision D20 (entry 23). -/
def Obligations.StatusSaysHowTheStepEnded : Prop :=
  (∀ s : State,
    (∀ r : Refusal, step s ≠ .refused r) ∧
    (∀ v : Nat, step s = .fault (.addressOverflow v) → stepStatus s = some .addressOverflow) ∧
    (∀ a : Nat, step s = .fault (.privateRegionAccess a) → stepStatus s = some .privateRegionAccess) ∧
    (∀ v : Nat, step s = .fault (.operandOutOfRange v) → stepStatus s = some .operandOutOfRange) ∧
    (∀ t : State, step s = .next t →
      (stepStatus s = some .ok ↔ ∃ i : Instr, decodeWord (wordAtPc s) = .ok i ∧
        ¬ (s.keys = 0x0000#16 ∧ ∃ x : Reg, i = .ldVxK x)) ∧
      (stepStatus s = some .unsupportedOpcode ↔ ∃ r : Reject, decodeWord (wordAtPc s) = .error r) ∧
      (stepStatus s = some .awaitingKey ↔
        s.keys = 0x0000#16 ∧ ∃ x : Reg, decodeWord (wordAtPc s) = .ok (.ldVxK x)) ∧
      (stepStatus s = some .unsupportedOpcode → t = { s with pc := s.pc + 2#12 }) ∧
      (stepStatus s = some .awaitingKey → t = s))) ∧
  Status.ok.code = 0 ∧ Status.unsupportedOpcode.code = 1 ∧ Status.awaitingKey.code = 2 ∧
  Status.addressOverflow.code = 3 ∧ Status.privateRegionAccess.code = 4 ∧
  Status.operandOutOfRange.code = 5

/-- R225 to R227, R229: an instruction faults exactly where the spec lists a raise point for it, with the
fault listed, and everywhere else it completes. Rests on the spec's decisions D3, D6, D9, D17 and D30
(entries 8, 19, 20). -/
def Obligations.InstructionsFaultExactlyAtTheRaisePoints : Prop :=
  ∀ (i : Instr) (s : State), match faultOf i s with
    | some f => exec i s = .fault f
    | none => ∃ t : State, exec i s = .next t

/-- R123, R225 to R227: a step faults exactly at the raise points of the fetch and, past them, at those of
the instruction fetched; in every other state it has a next state. Rests on the spec's
decisions D3, D6, D9, D17 and D30 (entries 8, 19, 20). -/
def Obligations.StepFaultsExactlyAtTheRaisePoints : Prop :=
  ∀ s : State,
    (∀ f : Fault, step s = .fault f ↔
      fetchFaultOf s = some f ∨
      (fetchFaultOf s = none ∧ ∃ i : Instr,
        decodeWord (s.mem.read s.pc.toNat ++ s.mem.read (s.pc.toNat + 1)) = .ok i ∧
        faultOf i { s with pc := s.pc + 2#12 } = some f)) ∧
    ((∃ t : State, step s = .next t) ∨ ∃ f : Fault, step s = .fault f)

/-! ## Flow (41_op0_op2_flow.md) -/

/-- R141, R191: `00E0` sets every pixel off and changes nothing else; its word is 0x00E0. -/
def Obligations.ClearTurnsEveryPixelOff : Prop :=
  encode .cls = 0x00E0#16 ∧ ∀ s : State, ∃ t : State, exec .cls s = .next t ∧ t = { s with fb := t.fb } ∧
    ∀ x y : Nat, t.fb.pixel x y = false

/-- R143: `1NNN` sets `pc` and nothing else, to any target; from a target in the interpreter block or at
0xFFE or 0xFFF the next step's fetch faults; and a jump to itself leaves the whole state unchanged. Its
word has `op = 1` and the target in the other bits. -/
def Obligations.JumpGoesToItsTarget : Prop :=
  ∀ (nnn : Addr) (s : State), encode (.jpNnn nnn) = 0x1#4 ++ nnn ∧
    exec (.jpNnn nnn) s = .next { s with pc := nnn } ∧
    (nnn.toNat ≤ 0x04F ∨ 0xFFE ≤ nnn.toNat → ∃ f, step { s with pc := nnn } = .fault f) ∧
    (0x050 ≤ s.pc.toNat → s.pc.toNat ≤ 0xFFD →
      decodeWord (s.mem.read s.pc.toNat ++ s.mem.read (s.pc.toNat + 1)) = .ok (.jpNnn s.pc) →
      step s = .next s)

/-- R144: a call with a slot left writes the following address to the slot at `0x1FE - SP`, high byte
first and high nibble zero, adds 2 to `SP` and goes to its target. The slot's place and byte order and the
capacity are the spec's decisions D8 and D9 (entries 7 and 8). -/
def Obligations.CallPushesTheFollowingAddress : Prop :=
  ∀ (nnn : Addr) (s : State), s.sp.toNat ≤ 252 →
    ∃ t : State, exec (.callNnn nnn) s = .next t ∧
      t = { s with pc := nnn, sp := t.sp, mem := t.mem } ∧ t.sp.toNat = s.sp.toNat + 2 ∧
      t.mem.read (0x1FE - s.sp.toNat) = BitVec.ofNat 8 (s.pc.toNat / 256) ∧
      t.mem.read (0x1FF - s.sp.toNat) = BitVec.ofNat 8 (s.pc.toNat % 256) ∧
      ∀ a : Nat, a ≠ 0x1FE - s.sp.toNat → a ≠ 0x1FF - s.sp.toNat → t.mem.read a = s.mem.read a

/-- R142: a return with a slot in use and an address in it subtracts 2 from `SP` and goes to that address;
memory is unchanged. The slot's place and byte order are D8 (entry 7). -/
def Obligations.ReturnPopsTheAddress : Prop :=
  ∀ s : State, 2 ≤ s.sp.toNat →
    256 * (s.mem.read (0x200 - s.sp.toNat)).toNat + (s.mem.read (0x201 - s.sp.toNat)).toNat ≤ 0xFFF →
    ∃ t : State, exec .ret s = .next t ∧ t = { s with pc := t.pc, sp := t.sp } ∧
      t.sp.toNat = s.sp.toNat - 2 ∧
      t.pc.toNat =
        256 * (s.mem.read (0x200 - s.sp.toNat)).toNat + (s.mem.read (0x201 - s.sp.toNat)).toNat

/-- R142, R144: a call with the stack full, a return with it empty and a return to a value above 0xFFF
raise `AddressOverflow`; D6 and D9 are the spec's decisions (entries 8 and 20). -/
def Obligations.StackFaults : Prop :=
  ∀ (nnn : Addr) (s : State),
    (252 < s.sp.toNat → exec (.callNnn nnn) s = .fault (.addressOverflow s.sp.toNat)) ∧
    (s.sp.toNat < 2 → exec .ret s = .fault (.addressOverflow s.sp.toNat)) ∧
    (2 ≤ s.sp.toNat → 0xFFF < poppedValue s → exec .ret s = .fault (.addressOverflow (poppedValue s)))

/-- R145: from an even `SP` with room for them, calls followed by as many returns all complete; the k-th
return from the end goes to the address following the k-th call, `SP` is as at the start, and so is
everything else but `pc` and memory, which keeps every byte outside the slots the calls filled. Where the
slots lie is D8 and how many there are is D9 (entries 7 and 8). -/
def Obligations.CallsAndReturnsAreSymmetric : Prop :=
  ∀ (calls : List (Addr × Addr)) (s : State), s.sp.toNat % 2 = 0 →
    s.sp.toNat + 2 * calls.length ≤ 254 →
    ∃ t u : State, callAll calls s = .next t ∧ t.sp.toNat = s.sp.toNat + 2 * calls.length ∧
      returnAll (calls.map Prod.fst).reverse t u ∧
      u = { s with pc := u.pc, mem := u.mem } ∧
      ∀ a : Nat, a < 0x200 - s.sp.toNat - 2 * calls.length ∨ 0x200 - s.sp.toNat ≤ a →
        u.mem.read a = s.mem.read a

/-! ## Skips (42_, 44_, 46_) -/

/-- R151, R152, R150: the skips on an immediate go 2 further when their condition holds, stay when it does
not, and change nothing else. A taken skip needs room (D6, entry 20). -/
def Obligations.SkipsOnAnImmediate : Prop :=
  ∀ (x : Reg) (nn : Byte) (s : State),
    ((s.reg x = nn → s.pc.toNat + 2 ≤ 0xFFF) →
      exec (.seVxNn x nn) s = .next { s with pc := if s.reg x = nn then s.pc + 2#12 else s.pc }) ∧
    ((s.reg x ≠ nn → s.pc.toNat + 2 ≤ 0xFFF) →
      exec (.sneVxNn x nn) s = .next { s with pc := if s.reg x ≠ nn then s.pc + 2#12 else s.pc })

/-- R153, R181, R150: the skips on two registers, whatever the low nibble (D22, entry 17). -/
def Obligations.SkipsOnTwoRegisters : Prop :=
  ∀ (x y : Reg) (n : Nibble) (s : State),
    ((s.reg x = s.reg y → s.pc.toNat + 2 ≤ 0xFFF) →
      exec (.seVxVy x y n) s =
        .next { s with pc := if s.reg x = s.reg y then s.pc + 2#12 else s.pc }) ∧
    ((s.reg x ≠ s.reg y → s.pc.toNat + 2 ≤ 0xFFF) →
      exec (.sneVxVy x y n) s =
        .next { s with pc := if s.reg x ≠ s.reg y then s.pc + 2#12 else s.pc })

/-- R200 to R202, R150: the skips on a key, for a key number 0 to 15 (D17, entry 19). -/
def Obligations.SkipsOnAKey : Prop :=
  ∀ (x : Reg) (s : State), (s.reg x).toNat ≤ 15 →
    ((s.keys.getLsbD (s.reg x).toNat = true → s.pc.toNat + 2 ≤ 0xFFF) →
      exec (.skpVx x) s = .next
        { s with pc := if s.keys.getLsbD (s.reg x).toNat then s.pc + 2#12 else s.pc }) ∧
    ((s.keys.getLsbD (s.reg x).toNat = false → s.pc.toNat + 2 ≤ 0xFFF) →
      exec (.sknpVx x) s = .next
        { s with pc := if s.keys.getLsbD (s.reg x).toNat then s.pc else s.pc + 2#12 })

/-- R150, R225 row 3 (D6, entry 20): a taken skip whose following address is 0xFFE or above raises
`AddressOverflow`, on all six skips. -/
def Obligations.TakenSkipPastTheEndFaults : Prop :=
  ∀ (x y : Reg) (nn : Byte) (n : Nibble) (s : State), 0xFFE ≤ s.pc.toNat →
    (s.reg x = nn → exec (.seVxNn x nn) s = .fault (.addressOverflow (s.pc.toNat + 2))) ∧
    (s.reg x ≠ nn → exec (.sneVxNn x nn) s = .fault (.addressOverflow (s.pc.toNat + 2))) ∧
    (s.reg x = s.reg y → exec (.seVxVy x y n) s = .fault (.addressOverflow (s.pc.toNat + 2))) ∧
    (s.reg x ≠ s.reg y → exec (.sneVxVy x y n) s = .fault (.addressOverflow (s.pc.toNat + 2))) ∧
    ((s.reg x).toNat ≤ 15 → s.keys.getLsbD (s.reg x).toNat = true →
      exec (.skpVx x) s = .fault (.addressOverflow (s.pc.toNat + 2))) ∧
    ((s.reg x).toNat ≤ 15 → s.keys.getLsbD (s.reg x).toNat = false →
      exec (.sknpVx x) s = .fault (.addressOverflow (s.pc.toNat + 2)))

/-- R227 (D17, entry 19): a key number or digit above 15 raises `OperandOutOfRange`, before any skip. -/
def Obligations.OperandAbove15Faults : Prop :=
  ∀ (x : Reg) (s : State), 15 < (s.reg x).toNat →
    exec (.skpVx x) s = .fault (.operandOutOfRange (s.reg x).toNat) ∧
    exec (.sknpVx x) s = .fault (.operandOutOfRange (s.reg x).toNat) ∧
    exec (.ldFVx x) s = .fault (.operandOutOfRange (s.reg x).toNat)

/-! ## Registers and arithmetic (42_, 43_, 44_) -/

/-- R154: `6XNN` writes `NN` to `VX`, `VF` like any other, and changes nothing else; its word. -/
def Obligations.LoadImmediateWritesTheRegister : Prop :=
  ∀ (x : Reg) (nn : Byte) (s : State), encode (.ldVxNn x nn) = (0x6#4 ++ x : BitVec 8) ++ nn ∧
    exec (.ldVxNn x nn) s = .next { s with v := s.v.set x.toNat nn x.isLt }

/-- R155: `7XNN` adds modulo 256, wrapping, and writes no flag; that it writes none is the spec's inference
(entry 35). -/
def Obligations.AddImmediateWrapsAndWritesNoFlag : Prop :=
  ∀ (x : Reg) (nn : Byte) (s : State), ∃ t : State, exec (.addVxNn x nn) s = .next t ∧
    OnlyRegisters s t ∧ (t.reg x).toNat = ((s.reg x).toNat + nn.toNat) % 256 ∧ OthersSame x s t

/-- R161 to R164: load and the bitwise operations write `VX` and no flag: the spec's decision D14 (entry
12). -/
def Obligations.LogicWritesItsRegisterOnly : Prop :=
  ∀ (x y : Reg) (s : State),
    exec (.ldVxVy x y) s = .next { s with v := s.v.set x.toNat (s.reg y) x.isLt } ∧
    exec (.orVxVy x y) s = .next { s with v := s.v.set x.toNat (s.reg x ||| s.reg y) x.isLt } ∧
    exec (.andVxVy x y) s = .next { s with v := s.v.set x.toNat (s.reg x &&& s.reg y) x.isLt } ∧
    exec (.xorVxVy x y) s = .next { s with v := s.v.set x.toNat (s.reg x ^^^ s.reg y) x.isLt }

/-- R165, R160: `8XY4` stores the truncated sum, and `VF` is 1 iff the unsigned sum exceeds 255; with
`X = F` the flag is what remains, the spec's decision D12 (entry 10). -/
def Obligations.AddReportsTheCarry : Prop :=
  ∀ (x y : Reg) (s : State), ∃ t : State, exec (.addVxVy x y) s = .next t ∧ OnlyRegisters s t ∧
    t.reg VF = bit ((s.reg x).toNat + (s.reg y).toNat > 255) ∧
    (x ≠ VF → (t.reg x).toNat = ((s.reg x).toNat + (s.reg y).toNat) % 256) ∧ OthersSameBarFlag x s t

/-- R166, R168, R160: `8XY5` and `8XY7` store the difference modulo 256, and `VF` is 1 iff a borrow
occurs; with `X = F` the flag is what remains (D12, entry 10). The polarity of `8XY7` is the spec's
inference from that of `8XY5` (entry 35). -/
def Obligations.SubtractsReportTheBorrow : Prop :=
  ∀ (x y : Reg) (s : State),
    (∃ t : State, exec (.subVxVy x y) s = .next t ∧ OnlyRegisters s t ∧
      t.reg VF = bit ((s.reg x).toNat < (s.reg y).toNat) ∧
      (x ≠ VF → (t.reg x).toNat = ((s.reg x).toNat + 256 - (s.reg y).toNat) % 256) ∧
      OthersSameBarFlag x s t) ∧
    (∃ t : State, exec (.subnVxVy x y) s = .next t ∧ OnlyRegisters s t ∧
      t.reg VF = bit ((s.reg y).toNat < (s.reg x).toNat) ∧
      (x ≠ VF → (t.reg x).toNat = ((s.reg y).toNat + 256 - (s.reg x).toNat) % 256) ∧
      OthersSameBarFlag x s t)

/-- R167, R169, R160: the shifts move `VX` by one in place whatever `Y` is (D13, entry 11), the vacated
bit is 0 and `VF` is the bit shifted out; with `X = F` the flag is what remains (D12, entry 10). -/
def Obligations.ShiftsReportTheBitShiftedOut : Prop :=
  ∀ (x y : Reg) (s : State),
    (∃ t : State, exec (.shrVx x y) s = .next t ∧ OnlyRegisters s t ∧
      t.reg VF = bit ((s.reg x).toNat % 2 = 1) ∧
      (x ≠ VF → (t.reg x).toNat = (s.reg x).toNat / 2) ∧ OthersSameBarFlag x s t) ∧
    (∃ t : State, exec (.shlVx x y) s = .next t ∧ OnlyRegisters s t ∧
      t.reg VF = bit (128 ≤ (s.reg x).toNat) ∧
      (x ≠ VF → (t.reg x).toNat = 2 * (s.reg x).toNat % 256) ∧ OthersSameBarFlag x s t)

/-- R182, R210: `ANNN` loads `I`, `FX1E` adds to it modulo 4096; no flag, no fault, nothing else; their
words. -/
def Obligations.IndexLoadsAndAddsWrap : Prop :=
  ∀ (nnn : Addr) (x : Reg) (s : State), encode (.ldINnn nnn) = 0xA#4 ++ nnn ∧
    encode (.addIVx x) = (0xF#4 ++ x : BitVec 8) ++ 0x1E#8 ∧
    exec (.ldINnn nnn) s = .next { s with i := nnn } ∧
    exec (.addIVx x) s =
      .next { s with i := BitVec.ofNat 12 ((s.i.toNat + (s.reg x).toNat) % 4096) }

/-- R183 (D30, entry 20): `BNNN` jumps to `NNN + V0`, always register 0, and raises `AddressOverflow`
where the sum is above 0xFFF. -/
def Obligations.IndexedJumpAddsV0 : Prop :=
  ∀ (nnn : Addr) (s : State),
    exec (.jpV0Nnn nnn) s =
      if nnn.toNat + (s.reg 0x0#4).toNat ≤ 0xFFF then
        .next { s with pc := BitVec.ofNat 12 (nnn.toNat + (s.reg 0x0#4).toNat) }
      else .fault (.addressOverflow (nnn.toNat + (s.reg 0x0#4).toNat))

/-- R184 (D18, entry 15): `CXNN` stores the next free byte AND `NN`, whatever that byte is (entry 1): the
result is a submask of `NN`, the draw is used up, and nothing else changes. -/
def Obligations.RandomIsMaskedByNn : Prop :=
  ∀ (x : Reg) (nn : Byte) (s : State), ∃ t : State, exec (.rndVxNn x nn) s = .next t ∧
    t = { s with v := t.v, draws := s.draws + 1 } ∧ t.reg x = Config.freeByte s.draws &&& nn ∧
    t.reg x &&& nn = t.reg x ∧ OthersSame x s t

/-! ## The display (45_opD_draw.md) -/

/-- R192: toggling a pixel flips the addressed bit and no other, coordinates taken modulo the size, and
returns whether the pixel was on before. -/
def Obligations.ToggleFlipsOnePixel : Prop :=
  ∀ (fb : Framebuffer) (x y x' y' : Nat),
    (togglePixel fb x y).1 = fb.pixel (x % 64) (y % 32) ∧
    (togglePixel fb x y).2.pixel x' y' =
      (fb.pixel x' y' ^^ decide (x % 64 = x' % 64 ∧ y % 32 = y' % 32))

/-- R194: drawing XORs the sprite's set bits into the display, wrapping, and `VF` is 1 iff some pixel went
from on to off. `VF` is written last and bit 7 is the left column by the spec's decisions D12 and D16
(entries 10 and 14); where the sprite may be read is D3 and D6 (entries 19 and 20). -/
def Obligations.DrawXorsTheSprite : Prop :=
  ∀ (x y : Reg) (n : Nibble) (s : State),
    (n = 0#4 ∨ 0x050 ≤ s.i.toNat ∧ s.i.toNat + n.toNat ≤ 0x1000) →
    ∃ t : State, exec (.drwVxVyN x y n) s = .next t ∧ t = { s with v := t.v, fb := t.fb } ∧
      (∀ px py : Nat, px < 64 → py < 32 →
        t.fb.pixel px py = (s.fb.pixel px py ^^ spriteCovers x y n.toNat s px py)) ∧
      (t.reg VF = 0x01#8 ∨ t.reg VF = 0x00#8) ∧
      (t.reg VF = 0x01#8 ↔ ∃ px py : Nat, px < 64 ∧ py < 32 ∧ s.fb.pixel px py = true ∧
        t.fb.pixel px py = false) ∧
      OthersSame VF s t

/-- R195: the same sprite drawn twice at the same coordinates restores the display whatever it held; on a
blank display the first draw reports 0 and the second reports 1 iff the sprite has a set bit. Where the
sprite may be read is D3 and D6 (entries 19 and 20). -/
def Obligations.DrawingTwiceRestoresTheDisplay : Prop :=
  ∀ (x y : Reg) (n : Nibble) (s : State),
    (n = 0#4 ∨ 0x050 ≤ s.i.toNat ∧ s.i.toNat + n.toNat ≤ 0x1000) →
    ∃ t u : State, exec (.drwVxVyN x y n) s = .next t ∧
      exec (.drwVxVyN x y n) { t with v := s.v } = .next u ∧ u.fb = s.fb ∧
      ((∀ px py : Nat, s.fb.pixel px py = false) →
        t.reg VF = 0x00#8 ∧
        (u.reg VF = 0x01#8 ↔ ∃ r : Nat, r < n.toNat ∧ s.mem.read (s.i.toNat + r) ≠ 0x00#8))

/-! ## Timers, keys, memory (47_opF_timers_memory.md) -/

/-- R206, R208, R209: `FX07` reads the delay timer, `FX15` and `FX18` write the timers; nothing else;
their words. -/
def Obligations.TimerInstructionsMoveOneByte : Prop :=
  ∀ (x : Reg) (s : State), encode (.ldVxDt x) = (0xF#4 ++ x : BitVec 8) ++ 0x07#8 ∧
    encode (.ldDtVx x) = (0xF#4 ++ x : BitVec 8) ++ 0x15#8 ∧
    encode (.ldStVx x) = (0xF#4 ++ x : BitVec 8) ++ 0x18#8 ∧
    exec (.ldVxDt x) s = .next { s with v := s.v.set x.toNat s.dt x.isLt } ∧
    exec (.ldDtVx x) s = .next { s with dt := s.reg x } ∧
    exec (.ldStVx x) s = .next { s with st := s.reg x }

/-- R207: with a key down `FX0A` stores the low byte of `KEYS` (D11, entry 9) and goes on. -/
def Obligations.KeyWaitStoresTheLatch : Prop :=
  ∀ (x : Reg) (s : State), s.keys ≠ 0x0000#16 →
    ∃ t : State, exec (.ldVxK x) s = .next t ∧ OnlyRegisters s t ∧
      (t.reg x).toNat = s.keys.toNat % 256 ∧ OthersSame x s t

/-- R207, R130 (D10, entry 6): with no key down a step that fetches `FX0A` reports `AwaitingKey` and leaves
the state exactly as it was. -/
def Obligations.KeyWaitWithNoKeyLeavesTheState : Prop :=
  ∀ (x : Reg) (s : State), s.keys = 0x0000#16 → 0x050 ≤ s.pc.toNat → s.pc.toNat ≤ 0xFFD →
    decodeWord (s.mem.read s.pc.toNat ++ s.mem.read (s.pc.toNat + 1)) = .ok (.ldVxK x) →
    step s = .next s ∧ stepStatus s = some .awaitingKey

/-- R211 (D17, entry 19): `FX29` of a digit 0 to 15 sets `I` to the digit's glyph. -/
def Obligations.GlyphAddressOfADigit : Prop :=
  ∀ (x : Reg) (s : State), (s.reg x).toNat ≤ 15 →
    exec (.ldFVx x) s = .next { s with i := BitVec.ofNat 12 (0x050 + 5 * (s.reg x).toNat) }

/-- R212: `FX33` stores the hundreds, tens and ones of `VX` at `I`, `I + 1` and `I + 2` and changes nothing
else, where all three are in reach (D3, D6: entries 19 and 20). -/
def Obligations.BcdStoresThreeDigits : Prop :=
  ∀ (x : Reg) (s : State), 0x050 ≤ s.i.toNat → s.i.toNat + 2 ≤ 0xFFF →
    ∃ t : State, exec (.ldBVx x) s = .next t ∧ OnlyMemory s t ∧
      (t.mem.read s.i.toNat).toNat = (s.reg x).toNat / 100 ∧
      (t.mem.read (s.i.toNat + 1)).toNat = (s.reg x).toNat / 10 % 10 ∧
      (t.mem.read (s.i.toNat + 2)).toNat = (s.reg x).toNat % 10 ∧
      ∀ a : Nat, a < s.i.toNat ∨ s.i.toNat + 3 ≤ a → t.mem.read a = s.mem.read a

/-- R214, R213: `FX55` stores `V0` to `VX` from `I` up and changes nothing else, `I` included (D15, entry
13), where all of them are in reach (D3, D6: entries 19 and 20). -/
def Obligations.StoreWritesTheRegisters : Prop :=
  ∀ (x : Reg) (s : State), 0x050 ≤ s.i.toNat → s.i.toNat + x.toNat ≤ 0xFFF →
    ∃ t : State, exec (.ldMemVx x) s = .next t ∧ OnlyMemory s t ∧
      (∀ r : Reg, r.toNat ≤ x.toNat → t.mem.read (s.i.toNat + r.toNat) = s.reg r) ∧
      ∀ a : Nat, a < s.i.toNat ∨ s.i.toNat + x.toNat < a → t.mem.read a = s.mem.read a

/-- R215, R213: `FX65` loads `V0` to `VX` from `I` up and changes nothing else, `I` included (D15, entry
13), where all of them are in reach (D3, D6: entries 19 and 20). -/
def Obligations.LoadReadsTheRegisters : Prop :=
  ∀ (x : Reg) (s : State), 0x050 ≤ s.i.toNat → s.i.toNat + x.toNat ≤ 0xFFF →
    ∃ t : State, exec (.ldVxMem x) s = .next t ∧ OnlyRegisters s t ∧
      (∀ r : Reg, r.toNat ≤ x.toNat → t.reg r = s.mem.read (s.i.toNat + r.toNat)) ∧
      ∀ r : Reg, x.toNat < r.toNat → t.reg r = s.reg r

/-- R215: `FX55` then `FX65` with the same `X` and `I` restores `V0` to `VX`, whatever the registers held
in between, where all of them are in reach (D3, D6: entries 19 and 20); that `I` is the same for both is
D15 (entry 13). -/
def Obligations.StoreThenLoadRestoresTheRegisters : Prop :=
  ∀ (x : Reg) (s : State) (v : Vector Byte 16), 0x050 ≤ s.i.toNat → s.i.toNat + x.toNat ≤ 0xFFF →
    ∃ t u : State, exec (.ldMemVx x) s = .next t ∧ exec (.ldVxMem x) { t with v := v } = .next u ∧
      ∀ r : Reg, r.toNat ≤ x.toNat → u.reg r = s.reg r

/-- R225 rows 8 to 10, R226 (D3 and D6, entries 19 and 20): a sprite read, a BCD store, a register store
and a register load fault in the interpreter block at their first byte, and past the end at 0x1000. -/
def Obligations.DataAccessesFaultOutsideMemory : Prop :=
  ∀ (x y : Reg) (n : Nibble) (s : State),
    (s.i.toNat ≤ 0x04F →
      (n ≠ 0#4 → exec (.drwVxVyN x y n) s = .fault (.privateRegionAccess s.i.toNat)) ∧
      exec (.ldBVx x) s = .fault (.privateRegionAccess s.i.toNat) ∧
      exec (.ldMemVx x) s = .fault (.privateRegionAccess s.i.toNat) ∧
      exec (.ldVxMem x) s = .fault (.privateRegionAccess s.i.toNat)) ∧
    (0x050 ≤ s.i.toNat →
      (0x1000 < s.i.toNat + n.toNat → exec (.drwVxVyN x y n) s = .fault (.addressOverflow 0x1000)) ∧
      (0xFFF < s.i.toNat + 2 → exec (.ldBVx x) s = .fault (.addressOverflow 0x1000)) ∧
      (0xFFF < s.i.toNat + x.toNat →
        exec (.ldMemVx x) s = .fault (.addressOverflow 0x1000) ∧
        exec (.ldVxMem x) s = .fault (.addressOverflow 0x1000)))

/-- R77: a store is seen by every later fetch with nothing in between. After any instruction, `FX55`, `FX33`
and a call with them, and in any later state whose memory is as that instruction left it, whatever its `pc`
and the rest are, the step runs the word made of the bytes stored, or of those that were there where none
was, and moves past an unsupported one. Where the instruction faults is D3, D6, D9, D17 and D30
(entries 8, 19, 20); where a call stores is D8 (entry 7). -/
def Obligations.StoredCodeIsFetchedNext : Prop :=
  ∀ (i : Instr) (s : State), faultOf i s = none →
    ∃ t : State, exec i s = .next t ∧
      ∀ u : State, u.mem = t.mem → 0x050 ≤ u.pc.toNat → u.pc.toNat ≤ 0xFFD →
        (∀ j : Instr,
          decodeWord (byteAfter i s u.pc.toNat ++ byteAfter i s (u.pc.toNat + 1)) = .ok j →
          step u = exec j { u with pc := u.pc + 2#12 }) ∧
        (∀ r : Reject,
          decodeWord (byteAfter i s u.pc.toNat ++ byteAfter i s (u.pc.toNat + 1)) = .error r →
          step u = .next { u with pc := u.pc + 2#12 })

/-! ## Frames over every instruction -/

/-- R21, R22: a `V` register changes only where the instruction names it as its destination, or writes it
as the flag. That `8XY0` to `8XY3` write no flag is the spec's decision D14 (entry 12). -/
def Obligations.RegistersChangeOnlyWhereNamed : Prop :=
  ∀ (i : Instr) (s t : State) (r : Reg), exec i s = .next t → writesReg i r = false →
    t.reg r = s.reg r

/-- R61: a byte of memory changes only inside what `2NNN`, `FX33` or `FX55` stores. Where a call stores is
the spec's decision D8 (entry 7). -/
def Obligations.MemoryChangesOnlyWhereStored : Prop :=
  ∀ (i : Instr) (s t : State) (a : Nat), exec i s = .next t →
    (∀ base n, storesAt i s = some (base, n) → a < base ∨ base + n ≤ a) →
    t.mem.read a = s.mem.read a

/-- R23 to R28, R32, R33: `pc`, `I`, `SP`, the timers, the latch, the display and the model's draw counter
change only by the instructions the spec names, `SP` by 2. That `FX55` and `FX65` leave `I` is the
spec's decision D15 (entry 13). -/
def Obligations.SpecialStateChangesOnlyWhereNamed : Prop :=
  ∀ (i : Instr) (s t : State), exec i s = .next t →
    (writesPc i = false → t.pc = s.pc) ∧
    (t.i ≠ s.i → (∃ nnn, i = .ldINnn nnn) ∨ (∃ x, i = .addIVx x) ∨ ∃ x, i = .ldFVx x) ∧
    (t.sp ≠ s.sp → (∃ nnn, i = .callNnn nnn) ∧ t.sp = s.sp + 2#8 ∨ i = .ret ∧ t.sp = s.sp - 2#8) ∧
    (t.dt ≠ s.dt → ∃ x, i = .ldDtVx x) ∧ (t.st ≠ s.st → ∃ x, i = .ldStVx x) ∧ t.keys = s.keys ∧
    (t.fb ≠ s.fb → i = .cls ∨ ∃ x y n, i = .drwVxVyN x y n) ∧
    (t.draws ≠ s.draws → (∃ x nn, i = .rndVxNn x nn) ∧ t.draws = s.draws + 1)

/-- R28: the latch is read by `EX9E`, `EXA1` and `FX0A` only: any other instruction does the same whatever
keys are down, and leaves the latch as it is. -/
def Obligations.OnlyKeyInstructionsReadTheKeys : Prop :=
  ∀ (i : Instr) (s : State) (k : Word), readsKeys i = false →
    exec i { s with keys := k } = mapNext (fun t => { t with keys := k }) (exec i s)

/-- R27: no instruction reads the sound timer: two runs of any length that start alike but for it end
alike but for it, at the same fault if at one. -/
def Obligations.SoundTimerNeverAffectsARun : Prop :=
  ∀ (k : Nat) (s : State) (b : Byte),
    mapNext withoutSound (Host.Core.run core k s) =
      mapNext withoutSound (Host.Core.run core k { s with st := b })

/-! ## The host (60_exceptions.md, 70_reset_and_hazards.md) -/

/-- R80: `Load` copies at most 3584 bytes to 0x200 and up, drops the rest, and changes nothing else. -/
def Obligations.LoadCopiesTheProgram : Prop :=
  ∀ (bytes : List Byte) (s : State) (a : Nat),
    OnlyMemory s (hostLoad bytes s) ∧
    (hostLoad bytes s).mem.read a =
      if 0x200 ≤ a ∧ a < 0x200 + min bytes.length 3584 then bytes.getD (a - 0x200) 0x00#8
      else s.mem.read a

/-- R233 (D19, entry 16): a tick takes 1 from each timer that is not zero, and changes nothing else; R235:
`SetKeys` writes the latch and nothing else. -/
def Obligations.HostTicksTimersAndSetsKeys : Prop :=
  ∀ (k : Word) (s : State),
    (hostTimerTick s).dt.toNat = s.dt.toNat - 1 ∧ (hostTimerTick s).st.toNat = s.st.toNat - 1 ∧
    hostTimerTick s = { s with dt := (hostTimerTick s).dt, st := (hostTimerTick s).st } ∧
    hostSetKeys k s = { s with keys := k }

/-- R38, R222, R240 (D7, D25: entries 21 and 22): reset is allowed always and gives the reset state whatever
came before; `Load` has a meaning only before the first step after a reset, and keeps the session there; a
step that completes ends that phase, and a later one goes on; a fault halts the core and then only reset has
a meaning; a key write and a tick are allowed in both phases and keep the phase. -/
def Obligations.HostProtocol : Prop :=
  ∀ (c : Session) (op : HostOp) (bytes : List Byte) (k : Word) (s t : State) (f : Fault),
    c.act .reset = some (.fresh State.reset) ∧
    Session.act (.fresh s) (.load bytes) = some (.fresh (hostLoad bytes s)) ∧
    Session.act (.running s) (.load bytes) = none ∧
    (step s = .next t → Session.act (.fresh s) .step = some (.running t) ∧
      Session.act (.running s) .step = some (.running t)) ∧
    (step s = .fault f → Session.act (.fresh s) .step = some .halted ∧
      Session.act (.running s) .step = some .halted) ∧
    (op ≠ .reset → Session.act .halted op = none) ∧
    Session.act (.fresh s) (.setKeys k) = some (.fresh (hostSetKeys k s)) ∧
    Session.act (.running s) (.setKeys k) = some (.running (hostSetKeys k s)) ∧
    Session.act (.fresh s) .timerTick = some (.fresh (hostTimerTick s)) ∧
    Session.act (.running s) .timerTick = some (.running (hostTimerTick s))

/-- R35, R81: a dump shows the settled fields at their offsets and the real bytes of `M` from 0x050 up, and
defines no other byte (entry 25). -/
def Obligations.DumpShowsTheByteImage : Prop :=
  ∀ (s : State) (a : Nat),
    dumpByte s 0x003 = some s.sp ∧ dumpByte s 0x004 = some s.dt ∧ dumpByte s 0x005 = some s.st ∧
    (∀ r : Reg, dumpByte s (0x010 + r.toNat) = some (s.reg r)) ∧
    (0x050 ≤ a → a ≤ 0xFFF → dumpByte s a = some (s.mem.read a)) ∧
    (a ≤ 0x002 ∨ (0x006 ≤ a ∧ a ≤ 0x00F) ∨ (0x020 ≤ a ∧ a ≤ 0x04F) ∨ 0xFFF < a →
      dumpByte s a = none)

/-- The model's own (entry 26): a supported word placed where the next step fetches is the instruction
that step runs, from any state, even one whose `pc` can fetch nothing. -/
def Obligations.PlacedWordIsTheOneRun : Prop :=
  ∀ (s : State) (w : Nat) (i : Instr), decodeTableWord 16 w = some i →
    ∃ s' : State, s' = s.withFetchWord 16 w ∧ step s' = exec i { s' with pc := s'.pc + 2#12 } ∧
      (0x050 ≤ s.pc.toNat → s.pc.toNat ≤ 0xFFD → OnlyMemory s s')
end

