-- ==== Sys2Proof/Laws/Decode.lean ====
section
/-! SUPPORT. The fields of a word built in each format, and a word rebuilt from its fields (30_encoding.md
R91 to R93). -/

namespace Sys2Proof

@[simp] theorem opField_wordNnn (t : Nibble) (nnn : Addr) : opField (wordNnn t nnn) = t :=
  BitVec.extractLsb'_append_eq_left

@[simp] theorem nnnField_wordNnn (t : Nibble) (nnn : Addr) : nnnField (wordNnn t nnn) = nnn :=
  BitVec.extractLsb'_append_eq_right

theorem extractLsb'_high (a : BitVec 8) (b : BitVec 8) (k : Nat) (h : k + 4 ≤ 8) :
    (a ++ b : BitVec 16).extractLsb' (8 + k) 4 = a.extractLsb' k 4 := by
  ext j hj
  simp only [BitVec.getElem_extractLsb', BitVec.getLsbD_append]
  simp [show ¬ (8 + k + j < 8) by omega, show 8 + k + j - 8 = k + j by omega]

theorem extractLsb'_low (a : BitVec 8) (b : BitVec 8) (k n : Nat) (h : k + n ≤ 8) :
    (a ++ b : BitVec 16).extractLsb' k n = b.extractLsb' k n := by
  ext j hj
  simp only [BitVec.getElem_extractLsb', BitVec.getLsbD_append]
  simp [show k + j < 8 by omega]

@[simp] theorem opField_wordXnn (t : Nibble) (x : Reg) (nn : Byte) : opField (wordXnn t x nn) = t := by
  exact (extractLsb'_high _ _ 4 (by omega)).trans BitVec.extractLsb'_append_eq_left

@[simp] theorem xField_wordXnn (t : Nibble) (x : Reg) (nn : Byte) : xField (wordXnn t x nn) = x := by
  exact (extractLsb'_high _ _ 0 (by omega)).trans BitVec.extractLsb'_append_eq_right

@[simp] theorem nnField_wordXnn (t : Nibble) (x : Reg) (nn : Byte) : nnField (wordXnn t x nn) = nn :=
  BitVec.extractLsb'_append_eq_right

@[simp] theorem opField_wordXys (t : Nibble) (x y : Reg) (n : Nibble) :
    opField (wordXys t x y n) = t := opField_wordXnn t x (y ++ n)

@[simp] theorem xField_wordXys (t : Nibble) (x y : Reg) (n : Nibble) :
    xField (wordXys t x y n) = x := xField_wordXnn t x (y ++ n)

@[simp] theorem yField_wordXys (t : Nibble) (x y : Reg) (n : Nibble) :
    yField (wordXys t x y n) = y := by
  unfold yField wordXys
  rw [extractLsb'_low _ _ 4 4 (by omega)]
  exact BitVec.extractLsb'_append_eq_left

@[simp] theorem nField_wordXys (t : Nibble) (x y : Reg) (n : Nibble) :
    nField (wordXys t x y n) = n := by
  unfold nField wordXys
  rw [extractLsb'_low _ _ 0 4 (by omega)]
  exact BitVec.extractLsb'_append_eq_right

/-- A word is its `op` and `NNN`. -/
theorem wordNnn_fields (w : Word) : wordNnn (opField w) (nnnField w) = w := by
  unfold wordNnn opField nnnField
  ext j hj
  simp only [BitVec.getElem_append, BitVec.getElem_extractLsb']
  grind

/-- A word is its `op`, `X` and `NN`. -/
theorem wordXnn_fields (w : Word) : wordXnn (opField w) (xField w) (nnField w) = w := by
  unfold wordXnn opField xField nnField
  ext j hj
  simp only [BitVec.getElem_append, BitVec.getElem_extractLsb']
  grind

/-- A word is its `op`, `X`, `Y` and `N`. -/
theorem wordXys_fields (w : Word) : wordXys (opField w) (xField w) (yField w) (nField w) = w := by
  unfold wordXys opField xField yField nField
  ext j hj
  simp only [BitVec.getElem_append, BitVec.getElem_extractLsb']
  grind

/-- The two bytes of a word in memory order give the word back. -/
theorem wordOfBytes_bytes (w : Word) : wordOfBytes (w.extractLsb' 8 8) (w.extractLsb' 0 8) = w := by
  unfold wordOfBytes
  ext j hj
  simp only [BitVec.getElem_append, BitVec.getElem_extractLsb']
  grind

end Sys2Proof
end

