-- ==== Sys2Proof/Laws/Display.lean ====
section
/-! SUPPORT. The display: what a pixel reads as after each operation, and what drawing a sprite does
pixel by pixel. -/

namespace Sys2Proof.Machine

/-- A pixel after one pixel was set: coordinates are taken modulo the size on both sides. -/
theorem Framebuffer.pixel_setPixel (fb : Framebuffer) (x y x' y' : Nat) (p : Bool) :
    (fb.setPixel x y p).pixel x' y' =
      if x % 64 = x' % 64 ∧ y % 32 = y' % 32 then p else fb.pixel x' y' := by
  unfold Framebuffer.setPixel Framebuffer.pixel
  simp only [Vector.getElem_set]
  by_cases hy : y % 32 = y' % 32
  · simp [hy, Vector.getElem_set]
  · simp [hy]

/-- A blank display reads off everywhere. -/
@[simp] theorem Framebuffer.pixel_blank (x y : Nat) : blankDisplay.pixel x y = false := by
  simp [Framebuffer.pixel, blankDisplay]

/-- Two framebuffers with the same pixels are equal. -/
theorem Framebuffer.ext_pixel {a b : Framebuffer}
    (h : ∀ x y, x < 64 → y < 32 → a.pixel x y = b.pixel x y) : a = b := by
  apply Vector.ext; intro y hy
  apply Vector.ext; intro x hx
  have := h x y hx hy
  simpa [Framebuffer.pixel, Nat.mod_eq_of_lt hx, Nat.mod_eq_of_lt hy] using this

/-- Whether one column of a sprite row at `(x0, y0)` lands on pixel `(x, y)`, both wrapping. -/
def columnLands (row : Byte) (x0 y0 c x y : Nat) : Bool :=
  spriteBit row c && decide ((x0 + c) % 64 = x % 64 ∧ y0 % 32 = y % 32)

/-- One column flips the pixel it lands on, and reports a hit where that pixel was on. -/
theorem pixel_drawColumn (row : Byte) (x0 y0 c x y : Nat) (d : Canvas) :
    (drawColumn row x0 y0 c d).1.pixel x y = (d.1.pixel x y ^^ columnLands row x0 y0 c x y) := by
  unfold drawColumn columnLands
  split
  · rename_i h
    simp only [togglePixel, Framebuffer.pixel_setPixel, h, Bool.true_and]
    by_cases e : (x0 + c) % 64 = x % 64 ∧ y0 % 32 = y % 32
    · have : d.1.pixel (x0 + c) y0 = d.1.pixel x y := by
        simp [Framebuffer.pixel, e.1, e.2]
      simp [e, this]
    · simp [e]
  · rename_i h
    simp [h]

theorem hit_drawColumn (row : Byte) (x0 y0 c : Nat) (d : Canvas) :
    (drawColumn row x0 y0 c d).2 = (d.2 || (spriteBit row c && d.1.pixel (x0 + c) y0)) := by
  unfold drawColumn
  split
  · rename_i h; simp [togglePixel, h]
  · rename_i h; simp [h]

/-- Whether one of the first `k` columns of a row at `(x0, y0)` lands on pixel `(x, y)`. -/
def columnsLand (row : Byte) (x0 y0 k x y : Nat) : Bool :=
  (List.range k).any fun c => columnLands row x0 y0 c x y

/-- No two columns of a row land on the same pixel. -/
theorem columnLands_inj {row : Byte} {x0 y0 c c' x y : Nat} (hc : c < 64) (hc' : c' < 64)
    (h : columnLands row x0 y0 c x y = true) (h' : columnLands row x0 y0 c' x y = true) : c = c' := by
  simp [columnLands] at h h'; omega

/-- The columns of a row flip the pixels they land on; a hit is a pixel among them that was on. -/
theorem drawColumns_spec (row : Byte) (x0 y0 : Nat) (k : Nat) (hk : k ≤ 8) (d : Canvas) :
    (∀ x y, (drawColumns row x0 y0 k d).1.pixel x y =
      (d.1.pixel x y ^^ columnsLand row x0 y0 k x y)) ∧
    ((drawColumns row x0 y0 k d).2 = true ↔ d.2 = true ∨
      ∃ x y, x < 64 ∧ y < 32 ∧ columnsLand row x0 y0 k x y = true ∧ d.1.pixel x y = true) := by
  induction k with
  | zero => simp [drawColumns, columnsLand]
  | succ k ih =>
    obtain ⟨ih1, ih2⟩ := ih (by omega)
    have hsucc : ∀ x y, columnsLand row x0 y0 (k + 1) x y =
        (columnsLand row x0 y0 k x y || columnLands row x0 y0 k x y) := by
      intro x y; simp [columnsLand, List.range_succ]
    have hexcl : ∀ x y, columnLands row x0 y0 k x y = true →
        columnsLand row x0 y0 k x y = false := by
      intro x y h
      rw [Bool.eq_false_iff]
      intro h'
      simp only [columnsLand, List.any_eq_true, List.mem_range] at h'
      obtain ⟨c, hc, h'⟩ := h'
      have := columnLands_inj (by omega) (by omega) h h'
      omega
    constructor
    · intro x y
      rw [drawColumns, pixel_drawColumn, ih1, hsucc]
      have := hexcl x y
      cases h1 : columnLands row x0 y0 k x y <;> cases h2 : columnsLand row x0 y0 k x y <;> simp_all
    · rw [drawColumns, hit_drawColumn, Bool.or_eq_true, ih2, ih1]
      constructor
      · rintro ((h | ⟨x, y, hx, hy, h1, h2⟩) | h)
        · exact .inl h
        · exact .inr ⟨x, y, hx, hy, by rw [hsucc, h1]; rfl, h2⟩
        · simp only [Bool.and_eq_true] at h
          obtain ⟨hb, hp⟩ := h
          have hl : columnLands row x0 y0 k (x0 + k) y0 = true := by simp [columnLands, hb]
          rw [hexcl _ _ hl] at hp
          refine .inr ⟨(x0 + k) % 64, y0 % 32, by omega, by omega, ?_, ?_⟩
          · rw [hsucc]; simp [columnLands, hb]
          · simpa [Framebuffer.pixel] using hp
      · rintro (h | ⟨x, y, hx, hy, h1, h2⟩)
        · exact .inl (.inl h)
        · rw [hsucc, Bool.or_eq_true] at h1
          rcases h1 with h1 | h1
          · exact .inl (.inr ⟨x, y, hx, hy, h1, h2⟩)
          · right
            rw [hexcl]
            · simp only [columnLands, Bool.and_eq_true, decide_eq_true_eq] at h1
              rw [h1.1]
              simp [Framebuffer.pixel, h1.2] at h2 ⊢; exact h2
            · simp only [columnLands, Bool.and_eq_true, decide_eq_true_eq] at h1 ⊢
              exact ⟨h1.1, by simp⟩

/-- Whether a set bit of a sprite at `(x0, y)` lands on pixel `(px, py)`. -/
def rowsLand (x0 y : Nat) (rows : List Byte) (px py : Nat) : Bool :=
  (List.range rows.length).any fun r => columnsLand (rows.getD r 0#8) x0 (y + r) 8 px py

theorem rowsLand_cons (x0 y) (row : Byte) (rows : List Byte) (px py) :
    rowsLand x0 y (row :: rows) px py =
      (columnsLand row x0 y 8 px py || rowsLand x0 (y + 1) rows px py) := by
  simp [rowsLand, List.range_succ_eq_map, List.any_map, Function.comp_def, Nat.add_assoc, Nat.add_comm 1]

/-- The rows of a sprite of at most 32 rows flip the pixels they land on; a hit is a pixel among them
that was on. -/
theorem drawRows_spec (x0 : Nat) (rows : List Byte) :
    ∀ (y0 : Nat) (_ : rows.length ≤ 32) (d : Canvas),
    (∀ x y, (drawRows x0 y0 rows d).1.pixel x y = (d.1.pixel x y ^^ rowsLand x0 y0 rows x y)) ∧
    ((drawRows x0 y0 rows d).2 = true ↔ d.2 = true ∨
      ∃ x y, x < 64 ∧ y < 32 ∧ rowsLand x0 y0 rows x y = true ∧ d.1.pixel x y = true) := by
  induction rows with
  | nil => intro y0 _ d; simp [drawRows, rowsLand]
  | cons row rows ih =>
    intro y0 hl d
    simp only [List.length_cons] at hl
    obtain ⟨c1, c2⟩ := drawColumns_spec row x0 y0 8 (by omega) d
    obtain ⟨i1, i2⟩ := ih (y0 + 1) (by omega) (drawColumns row x0 y0 8 d)
    have hexcl : ∀ x y, rowsLand x0 (y0 + 1) rows x y = true →
        columnsLand row x0 y0 8 x y = false := by
      intro x y h
      rw [Bool.eq_false_iff]
      intro h'
      simp only [rowsLand, columnsLand, columnLands, List.any_eq_true, List.mem_range,
        Bool.and_eq_true, decide_eq_true_eq] at h h'
      obtain ⟨r, hr, c, hc, _, _, h2⟩ := h
      obtain ⟨c', hc', _, _, h2'⟩ := h'
      omega
    constructor
    · intro x y
      rw [drawRows, i1, c1, rowsLand_cons]
      have := hexcl x y
      cases h1 : rowsLand x0 (y0 + 1) rows x y <;> cases h2 : columnsLand row x0 y0 8 x y <;> simp_all
    · rw [drawRows, i2, c2]
      constructor
      · rintro ((h | ⟨x, y, hx, hy, h1, h2⟩) | ⟨x, y, hx, hy, h1, h2⟩)
        · exact .inl h
        · exact .inr ⟨x, y, hx, hy, by rw [rowsLand_cons, h1]; rfl, h2⟩
        · rw [c1, hexcl _ _ h1] at h2
          exact .inr ⟨x, y, hx, hy, by rw [rowsLand_cons, h1]; simp, by simpa using h2⟩
      · rintro (h | ⟨x, y, hx, hy, h1, h2⟩)
        · exact .inl (.inl h)
        · rw [rowsLand_cons, Bool.or_eq_true] at h1
          rcases h1 with h1 | h1
          · exact .inl (.inr ⟨x, y, hx, hy, h1, h2⟩)
          · exact .inr ⟨x, y, hx, hy, h1, by rw [c1, hexcl _ _ h1]; simpa using h2⟩

end Sys2Proof.Machine
end

