-- ==== Sys2Proof/Laws/Memory.lean ====
section
/-! SUPPORT. The laws of memory as data: a read after a write, and that every operation keeps the
canonical form. -/

namespace Sys2Proof.Machine

theorem Memory.lookup_insert (m : Memory) (a b : Nat) (v : Byte) :
    (m.insert a v).lookup b = if a = b then some v else m.lookup b := by
  induction m with
  | nil => simp [Memory.insert, Memory.lookup]
  | cons e rest ih =>
    obtain ⟨k, w⟩ := e
    simp only [Memory.insert]
    split
    · simp [Memory.lookup]
    · split
      · subst k; simp [Memory.lookup]; grind
      · simp only [Memory.lookup, ih]; grind

theorem Memory.lookup_erase (m : Memory) (a b : Nat) :
    (m.erase a).lookup b = if a = b then none else m.lookup b := by
  induction m with
  | nil => simp [Memory.erase, Memory.lookup]
  | cons e rest ih =>
    obtain ⟨k, w⟩ := e
    simp only [Memory.erase]
    split
    · subst k; simp only [ih, Memory.lookup]; grind
    · simp only [Memory.lookup, ih]; grind

/-- The font table at reset (R79). -/
theorem Memory.unlisted_font (k : Nat) : Memory.unlisted (0x050 + k) = Params.font.getD k 0#8 := by
  rw [Memory.unlisted, if_pos (by exact Nat.le_add_right _ _)]
  exact congrArg (Params.font.getD · 0#8) (Nat.add_sub_cancel_left _ _)

/-- Every other byte is zero at reset (R39). -/
theorem Memory.unlisted_zero {a : Nat} (h : a < 0x050 ∨ 0x0A0 ≤ a) : Memory.unlisted a = 0#8 := by
  rcases h with h | h
  · rw [Memory.unlisted, if_neg (by exact Nat.not_le.mpr h)]
  · obtain ⟨k, rfl⟩ : ∃ k, a = 0x050 + k := ⟨a - 0x050, by omega⟩
    have : Params.font.length ≤ k := by simp [Params.font]; omega
    rw [Memory.unlisted_font]
    simp [List.getElem?_eq_none this]

/-- Memory that lists nothing reads as the reset contents. -/
@[simp] theorem Memory.read_nil (a : Nat) : Memory.read [] a = Memory.unlisted a := rfl

/-- A read after a write: the byte written at its own address, every other address as before. -/
theorem Memory.read_write (m : Memory) {a : Nat} (b : Nat) (v : Byte) (ha : Memory.InRange a) :
    (m.write a v).read b = if a = b then v else m.read b := by
  unfold Memory.write Memory.read
  rw [if_pos ha]
  split
  · rw [Memory.lookup_erase]; grind
  · rw [Memory.lookup_insert]; grind

theorem Memory.write_out (m : Memory) {a : Nat} (v : Byte) (ha : ¬ Memory.InRange a) :
    m.write a v = m := if_neg ha

theorem Memory.read_write_ne (m : Memory) {a b : Nat} (v : Byte) (h : a ≠ b) :
    (m.write a v).read b = m.read b := by
  by_cases ha : Memory.InRange a
  · rw [Memory.read_write _ _ _ ha, if_neg h]
  · rw [Memory.write_out _ _ ha]

/-- A read after consecutive writes. -/
theorem Memory.read_writes (m : Memory) (a b : Nat) (bs : List Byte)
    (lo : Config.blockHi < a) (hi : a + bs.length ≤ Config.memSize) :
    (m.writes a bs).read b =
      if h : a ≤ b ∧ b < a + bs.length then bs[b - a]'(by omega) else m.read b := by
  induction bs generalizing m a with
  | nil => simp [Memory.writes]
  | cons c cs ih =>
    simp only [List.length_cons] at hi
    rw [Memory.writes, ih _ _ (by omega) (by omega),
      Memory.read_write _ _ _ ⟨lo, by omega⟩]
    by_cases hb : a = b
    · subst b; simp
    · by_cases h : a + 1 ≤ b ∧ b < a + 1 + cs.length
      · have e : b - a = (b - (a + 1)) + 1 := by omega
        have h' : a ≤ b ∧ b < a + (cs.length + 1) := by omega
        simp [h, h', e]
      · have h' : ¬ (a ≤ b ∧ b < a + (cs.length + 1)) := by omega
        rw [dif_neg h, if_neg hb]
        simp [h']

theorem Memory.read_writes_out (m : Memory) (a b : Nat) (bs : List Byte)
    (h : b < a ∨ a + bs.length ≤ b) : (m.writes a bs).read b = m.read b := by
  induction bs generalizing m a with
  | nil => rfl
  | cons c cs ih =>
    simp only [List.length_cons] at h
    rw [Memory.writes, ih _ _ (by omega), Memory.read_write_ne _ _ (by omega)]

theorem Memory.wfFrom_mono {lo lo' : Nat} {m : Memory} (h : Memory.wfFrom lo m = true) (hl : lo' ≤ lo) :
    Memory.wfFrom lo' m = true := by
  cases m with
  | nil => rfl
  | cons e rest =>
    simp only [Memory.wfFrom, Bool.and_eq_true, decide_eq_true_eq] at h ⊢
    exact ⟨⟨⟨by omega, h.1.1.2⟩, h.1.2⟩, h.2⟩

theorem Memory.wfFrom_insert {lo a : Nat} {v : Byte} {m : Memory} (h : Memory.wfFrom lo m = true)
    (lo_a : lo < a) (a_hi : a < Config.memSize) (hv : v ≠ Memory.unlisted a) :
    Memory.wfFrom lo (m.insert a v) = true := by
  induction m generalizing lo with
  | nil => simp [Memory.insert, Memory.wfFrom, lo_a, a_hi, hv]
  | cons e rest ih =>
    obtain ⟨k, w⟩ := e
    simp only [Memory.insert]
    have h0 := h
    simp only [Memory.wfFrom, Bool.and_eq_true, decide_eq_true_eq] at h
    obtain ⟨⟨⟨h1, h2⟩, h3⟩, h4⟩ := h
    split
    · rename_i hak
      simp only [Memory.wfFrom, Bool.and_eq_true, decide_eq_true_eq]
      exact ⟨⟨⟨lo_a, a_hi⟩, by simpa using hv⟩, ⟨⟨hak, h2⟩, h3⟩, h4⟩
    · split
      · subst k
        simp only [Memory.wfFrom, Bool.and_eq_true, decide_eq_true_eq]
        exact ⟨⟨⟨lo_a, a_hi⟩, by simpa using hv⟩, h4⟩
      · simp only [Memory.wfFrom, Bool.and_eq_true, decide_eq_true_eq]
        exact ⟨⟨⟨h1, h2⟩, h3⟩, ih h4 (by omega)⟩

theorem Memory.wfFrom_erase {lo : Nat} {m : Memory} (a : Nat) (h : Memory.wfFrom lo m = true) :
    Memory.wfFrom lo (m.erase a) = true := by
  induction m generalizing lo with
  | nil => rfl
  | cons e rest ih =>
    obtain ⟨k, w⟩ := e
    simp only [Memory.wfFrom, Bool.and_eq_true, decide_eq_true_eq] at h
    obtain ⟨⟨⟨h1, h2⟩, h3⟩, h4⟩ := h
    simp only [Memory.erase]
    split
    · exact ih (Memory.wfFrom_mono h4 (by omega))
    · simp only [Memory.wfFrom, Bool.and_eq_true, decide_eq_true_eq]
      exact ⟨⟨⟨h1, h2⟩, h3⟩, ih h4⟩

/-- A write keeps the canonical form. -/
theorem Memory.wf_write {m : Memory} (a : Nat) (v : Byte) (h : m.wf = true) : (m.write a v).wf = true := by
  unfold Memory.write
  split
  · rename_i ha
    split
    · exact Memory.wfFrom_erase a h
    · rename_i hv; exact Memory.wfFrom_insert h ha.1 ha.2 hv
  · exact h

/-- Consecutive writes keep the canonical form. -/
theorem Memory.wf_writes {m : Memory} (a : Nat) (bs : List Byte) (h : m.wf = true) :
    (m.writes a bs).wf = true := by
  induction bs generalizing m a with
  | nil => exact h
  | cons b bs ih => exact ih _ (Memory.wf_write a b h)

/-- The memory at reset is in canonical form. -/
theorem Memory.wf_reset : State.reset.mem.wf = true := rfl

end Sys2Proof.Machine
end

