-- ==== Sys2Proof/Laws/State.lean ====
section
/-! SUPPORT. What each operation on the state changes and leaves: one lemma per field per update. -/

namespace Sys2Proof.Machine

/-! `setReg` -/

@[simp] theorem State.setReg_pc (s : State) (x : Reg) (b : Byte) : (s.setReg x b).pc = s.pc := rfl
@[simp] theorem State.setReg_i (s : State) (x : Reg) (b : Byte) : (s.setReg x b).i = s.i := rfl
@[simp] theorem State.setReg_sp (s : State) (x : Reg) (b : Byte) : (s.setReg x b).sp = s.sp := rfl
@[simp] theorem State.setReg_dt (s : State) (x : Reg) (b : Byte) : (s.setReg x b).dt = s.dt := rfl
@[simp] theorem State.setReg_st (s : State) (x : Reg) (b : Byte) : (s.setReg x b).st = s.st := rfl
@[simp] theorem State.setReg_keys (s : State) (x : Reg) (b : Byte) : (s.setReg x b).keys = s.keys := rfl
@[simp] theorem State.setReg_mem (s : State) (x : Reg) (b : Byte) : (s.setReg x b).mem = s.mem := rfl
@[simp] theorem State.setReg_fb (s : State) (x : Reg) (b : Byte) : (s.setReg x b).fb = s.fb := rfl
@[simp] theorem State.setReg_draws (s : State) (x : Reg) (b : Byte) : (s.setReg x b).draws = s.draws := rfl

/-- A register after a register write. -/
theorem State.reg_setReg (s : State) (x r : Reg) (b : Byte) :
    (s.setReg x b).reg r = if x = r then b else s.reg r := by
  simp only [State.reg, State.setReg, Vector.getElem_set, BitVec.toNat_inj]

@[simp] theorem State.reg_setReg_same (s : State) (x : Reg) (b : Byte) : (s.setReg x b).reg x = b := by
  simp [State.reg_setReg]

/-! `setRegFlag`: at the spec's default the flag is written last. -/

theorem State.setRegFlag_eq (s : State) (x : Reg) (b : Byte) (f : Bool) :
    s.setRegFlag x b f = (s.setReg x b).setReg VF (flagByte f) := rfl

/-! `afterLogic` and `afterTransfer`: at the spec's defaults they change nothing. -/

@[simp] theorem State.afterLogic_eq (s : State) : s.afterLogic = s := rfl
@[simp] theorem State.afterTransfer_eq (s : State) (n : Nat) : s.afterTransfer n = s := rfl

/-! `setRegsFrom` changes registers only. -/

theorem State.setRegsFrom_frame (s : State) (k : Nat) (bs : List Byte) :
    ∃ v, s.setRegsFrom k bs = { s with v := v } := by
  induction bs generalizing s k with
  | nil => exact ⟨s.v, rfl⟩
  | cons b bs ih =>
    simp only [State.setRegsFrom]
    split
    · obtain ⟨v, hv⟩ := ih { s with v := s.v.set k b _ } (k + 1)
      exact ⟨v, hv⟩
    · exact ⟨s.v, rfl⟩

@[simp] theorem State.setRegsFrom_pc (s : State) (k : Nat) (bs : List Byte) :
    (s.setRegsFrom k bs).pc = s.pc := by obtain ⟨v, h⟩ := s.setRegsFrom_frame k bs; rw [h]
@[simp] theorem State.setRegsFrom_i (s : State) (k : Nat) (bs : List Byte) :
    (s.setRegsFrom k bs).i = s.i := by obtain ⟨v, h⟩ := s.setRegsFrom_frame k bs; rw [h]
@[simp] theorem State.setRegsFrom_sp (s : State) (k : Nat) (bs : List Byte) :
    (s.setRegsFrom k bs).sp = s.sp := by obtain ⟨v, h⟩ := s.setRegsFrom_frame k bs; rw [h]
@[simp] theorem State.setRegsFrom_dt (s : State) (k : Nat) (bs : List Byte) :
    (s.setRegsFrom k bs).dt = s.dt := by obtain ⟨v, h⟩ := s.setRegsFrom_frame k bs; rw [h]
@[simp] theorem State.setRegsFrom_st (s : State) (k : Nat) (bs : List Byte) :
    (s.setRegsFrom k bs).st = s.st := by obtain ⟨v, h⟩ := s.setRegsFrom_frame k bs; rw [h]
@[simp] theorem State.setRegsFrom_keys (s : State) (k : Nat) (bs : List Byte) :
    (s.setRegsFrom k bs).keys = s.keys := by obtain ⟨v, h⟩ := s.setRegsFrom_frame k bs; rw [h]
@[simp] theorem State.setRegsFrom_mem (s : State) (k : Nat) (bs : List Byte) :
    (s.setRegsFrom k bs).mem = s.mem := by obtain ⟨v, h⟩ := s.setRegsFrom_frame k bs; rw [h]
@[simp] theorem State.setRegsFrom_fb (s : State) (k : Nat) (bs : List Byte) :
    (s.setRegsFrom k bs).fb = s.fb := by obtain ⟨v, h⟩ := s.setRegsFrom_frame k bs; rw [h]
@[simp] theorem State.setRegsFrom_draws (s : State) (k : Nat) (bs : List Byte) :
    (s.setRegsFrom k bs).draws = s.draws := by obtain ⟨v, h⟩ := s.setRegsFrom_frame k bs; rw [h]

/-- A register after consecutive register writes. -/
theorem State.reg_setRegsFrom (s : State) (k : Nat) (bs : List Byte) (r : Reg)
    (h : k + bs.length ≤ 16) :
    (s.setRegsFrom k bs).reg r =
      if h : k ≤ r.toNat ∧ r.toNat < k + bs.length then bs[r.toNat - k]'(by omega) else s.reg r := by
  induction bs generalizing s k with
  | nil => simp [State.setRegsFrom]
  | cons b bs ih =>
    simp only [List.length_cons] at h
    rw [State.setRegsFrom, dif_pos (by omega), ih _ _ (by omega)]
    by_cases hk : k = r.toNat
    · subst k; simp [State.reg]
    · by_cases hr : k + 1 ≤ r.toNat ∧ r.toNat < k + 1 + bs.length
      · have e : r.toNat - k = (r.toNat - (k + 1)) + 1 := by omega
        have h' : k ≤ r.toNat ∧ r.toNat < k + (bs.length + 1) := by omega
        simp [hr, h', e]
      · have h' : ¬ (k ≤ r.toNat ∧ r.toNat < k + (bs.length + 1)) := by omega
        rw [dif_neg hr]
        simp [h', State.reg, hk]

/-! `stackWrite16` changes the two bytes of one slot. -/

theorem State.stackWrite16_eq (s : State) (sp : Nat) (v : Addr) :
    s.stackWrite16 sp v =
      { s with mem := s.mem.write (0x1FE - sp) ((v.setWidth 16).extractLsb' 8 8) |>.write
                        (0x1FE - sp + 1) ((v.setWidth 16).extractLsb' 0 8) } := rfl

theorem State.stackRead16_eq (s : State) (sp : Nat) :
    s.stackRead16 sp = (s.mem.read (0x1FE - sp) ++ s.mem.read (0x1FE - sp + 1) : BitVec 16) := rfl

/-- The value of a slot as a number: its first byte is the high one. -/
theorem State.toNat_stackRead16 (s : State) (sp : Nat) :
    (s.stackRead16 sp).toNat =
      256 * (s.mem.read (0x1FE - sp)).toNat + (s.mem.read (0x1FE - sp + 1)).toNat := by
  rw [State.stackRead16_eq, BitVec.toNat_append, ← Nat.shiftLeft_add_eq_or_of_lt (BitVec.isLt _),
    Nat.shiftLeft_eq]
  omega

/-- The last `SP` at which a call has a slot (R144). -/
@[simp] theorem stackLastPush_eq : stackLastPush = 252 := rfl

/-- A slot holds the address written to it. -/
theorem State.stackRead16_stackWrite16 (s : State) (sp : Nat) (v : Addr) (h : sp ≤ 252) :
    (s.stackWrite16 sp v).stackRead16 sp = v.setWidth 16 := by
  have h0 : Memory.InRange (0x1FE - sp) := by constructor <;> simp [Config.blockHi, Config.memSize] <;> omega
  have h1 : Memory.InRange (0x1FE - sp + 1) := by constructor <;> simp [Config.blockHi, Config.memSize] <;> omega
  rw [State.stackRead16_eq, State.stackWrite16_eq]
  simp only [Memory.read_write _ _ _ h1, Memory.read_write _ _ _ h0]
  simp
  ext j hj
  simp
  grind

/-- Every slot below and above keeps its bytes. -/
theorem State.read_stackWrite16_ne (s : State) (sp : Nat) (v : Addr) (a : Nat)
    (h : a ≠ 0x1FE - sp ∧ a ≠ 0x1FE - sp + 1) : (s.stackWrite16 sp v).mem.read a = s.mem.read a := by
  rw [State.stackWrite16_eq]
  simp only
  rw [Memory.read_write_ne _ _ (Ne.symm h.2), Memory.read_write_ne _ _ (Ne.symm h.1)]

theorem State.wf_stackWrite16 (s : State) (sp : Nat) (v : Addr) (h : s.mem.wf = true) :
    (s.stackWrite16 sp v).mem.wf = true :=
  Memory.wf_write _ _ (Memory.wf_write _ _ h)

end Sys2Proof.Machine
end

