-- ==== Sys2Proof/Laws/Ops.lean ====
section
/-! SUPPORT. One law per shared operation: everything it can answer. -/

namespace Sys2Proof.Machine

/-- The check of a program-issued access, as the regions of R62 give it. -/
theorem checkAccess_cases (a : Nat) :
    (a ≤ Config.blockHi ∧ checkAccess a = .error (.privateRegionAccess a)) ∨
    (Memory.InRange a ∧ checkAccess a = .ok ()) ∨
    (Config.memSize ≤ a ∧ checkAccess a = .error (.addressOverflow a)) := by
  unfold checkAccess Memory.InRange
  simp only [Config.blockHi, Config.memSize]
  by_cases h1 : a > 0xFFF
  · exact .inr (.inr ⟨h1, if_pos h1⟩)
  · rw [if_neg h1]
    by_cases h2 : a ≤ 0x04F
    · exact .inl ⟨h2, if_pos h2⟩
    · exact .inr (.inl ⟨by omega, if_neg h2⟩)

theorem checkAccess_ok {a : Nat} (h : Memory.InRange a) : checkAccess a = .ok () := by
  rcases checkAccess_cases a with ⟨h', _⟩ | ⟨_, h'⟩ | ⟨h', _⟩
  · exact absurd h.1 (by omega)
  · exact h'
  · exact absurd h.2 (by omega)

theorem checkAccess_block {a : Nat} (h : a ≤ 0x04F) :
    checkAccess a = .error (.privateRegionAccess a) := by
  unfold checkAccess
  rw [if_neg (by omega), if_pos (by exact h)]

theorem checkAccess_over {a : Nat} (h : 0xFFF < a) : checkAccess a = .error (.addressOverflow a) := by
  unfold checkAccess
  rw [if_pos h]

/-- Consecutive reads that all lie in 0x050 to 0xFFF. -/
theorem State.memReads_ok (s : State) (a n : Nat)
    (h : n = 0 ∨ Config.blockHi < a ∧ a + n ≤ Config.memSize) :
    s.memReads a n = .ok ((List.range' a n).map s.mem.read) := by
  induction n generalizing a with
  | zero => rfl
  | succ n ih =>
    have ha : Memory.InRange a := ⟨by omega, by omega⟩
    have hn := ih (a + 1) (by omega)
    simp [State.memReads, State.memRead, checkAccess_ok ha, hn, List.range'_succ]

/-- Consecutive reads from the interpreter block: the first byte faults. -/
theorem State.memReads_block (s : State) (a n : Nat) (h : a ≤ 0x04F) (hn : n ≠ 0) :
    s.memReads a n = .error (.privateRegionAccess a) := by
  obtain ⟨m, rfl⟩ := Nat.exists_eq_succ_of_ne_zero hn
  simp [State.memReads, State.memRead, checkAccess_block h]

/-- Consecutive reads past the end of memory: 0x1000 is the first address that does not exist. -/
theorem State.memReads_over (s : State) (a n : Nat) (lo : 0x04F < a) (ha : a ≤ 0x1000)
    (h : 0x1000 < a + n) : s.memReads a n = .error (.addressOverflow 0x1000) := by
  induction n generalizing a with
  | zero => omega
  | succ n ih =>
    by_cases e : a = 0x1000
    · subst a; simp [State.memReads, State.memRead, checkAccess_over]
    · have hin : Memory.InRange a := ⟨lo, by simp [Config.memSize]; omega⟩
      have hn := ih (a + 1) (by omega) (by omega) (by omega)
      simp [State.memReads, State.memRead, checkAccess_ok hin, hn]

/-- Consecutive writes that all lie in 0x050 to 0xFFF change those bytes and nothing else. -/
theorem State.memWrites_ok (s : State) (a : Nat) (bs : List Byte)
    (h : bs = [] ∨ Config.blockHi < a ∧ a + bs.length ≤ Config.memSize) :
    s.memWrites a bs = .ok { s with mem := s.mem.writes a bs } := by
  induction bs generalizing s a with
  | nil => rfl
  | cons b bs ih =>
    have h' : Config.blockHi < a ∧ a + (bs.length + 1) ≤ Config.memSize := by simpa using h
    have ha : Memory.InRange a := ⟨by omega, by omega⟩
    have hn := ih { s with mem := s.mem.write a b } (a + 1) (.inr ⟨by omega, by omega⟩)
    simp [State.memWrites, State.memWrite, checkAccess_ok ha, hn, Memory.writes]

theorem State.memWrites_block (s : State) (a : Nat) (bs : List Byte) (h : a ≤ 0x04F) (hn : bs ≠ []) :
    s.memWrites a bs = .error (.privateRegionAccess a) := by
  obtain ⟨b, cs, rfl⟩ := List.exists_cons_of_ne_nil hn
  simp [State.memWrites, State.memWrite, checkAccess_block h]

theorem State.memWrites_over (s : State) (a : Nat) (bs : List Byte) (lo : 0x04F < a) (ha : a ≤ 0x1000)
    (h : 0x1000 < a + bs.length) : s.memWrites a bs = .error (.addressOverflow 0x1000) := by
  induction bs generalizing s a with
  | nil => simp at h; omega
  | cons b bs ih =>
    by_cases e : a = 0x1000
    · subst a; simp [State.memWrites, State.memWrite, checkAccess_over]
    · have hin : Memory.InRange a := ⟨lo, by simp [Config.memSize]; omega⟩
      have hn := ih { s with mem := s.mem.write a b } (a + 1) (by omega) (by omega)
        (by simp at h; omega)
      simp [State.memWrites, State.memWrite, checkAccess_ok hin, hn]

/-- Consecutive reads from `I` fault exactly at the raise points of R225 and R226. -/
theorem State.memReads_cases (s : State) (n : Nat) :
    (dataFault n s = none ∧
      s.memReads s.i.toNat n = .ok ((List.range' s.i.toNat n).map s.mem.read)) ∨
    ∃ f, dataFault n s = some f ∧ s.memReads s.i.toNat n = .error f := by
  have hi : s.i.toNat < 4096 := s.i.isLt
  unfold dataFault
  split
  · exact .inl ⟨rfl, State.memReads_ok _ _ _ (.inl ‹_›)⟩
  · split
    · exact .inr ⟨_, rfl, State.memReads_block _ _ _ ‹_› ‹_›⟩
    · split
      · exact .inr ⟨_, rfl, State.memReads_over _ _ _ (by omega) (by omega) ‹_›⟩
      · exact .inl ⟨rfl, State.memReads_ok _ _ _ (.inr (by
          simp only [Config.blockHi, Config.memSize]; omega))⟩

/-- Consecutive writes from `I` fault exactly at the raise points of R225 and R226. -/
theorem State.memWrites_cases (s : State) (bs : List Byte) :
    (dataFault bs.length s = none ∧
      s.memWrites s.i.toNat bs = .ok { s with mem := s.mem.writes s.i.toNat bs }) ∨
    ∃ f, dataFault bs.length s = some f ∧ s.memWrites s.i.toNat bs = .error f := by
  have hi : s.i.toNat < 4096 := s.i.isLt
  unfold dataFault
  split
  · exact .inl ⟨rfl, State.memWrites_ok _ _ _ (.inl (List.eq_nil_of_length_eq_zero ‹_›))⟩
  · rename_i hn
    have hne : bs ≠ [] := fun e => hn (by simp [e])
    split
    · exact .inr ⟨_, rfl, State.memWrites_block _ _ _ ‹_› hne⟩
    · split
      · exact .inr ⟨_, rfl, State.memWrites_over _ _ _ (by omega) (by omega) ‹_›⟩
      · exact .inl ⟨rfl, State.memWrites_ok _ _ _ (.inr (by
          simp only [Config.blockHi, Config.memSize]; omega))⟩

/-- `SetPC` of a value that fits. -/
theorem State.setPC_ok (s : State) {v : Nat} (h : v ≤ 0xFFF) :
    s.setPC v = .ok { s with pc := BitVec.ofNat 12 v } := by
  unfold State.setPC
  rw [if_neg (by omega)]

/-- `SetPC` of a value that does not fit. -/
theorem State.setPC_over (s : State) {v : Nat} (h : 0xFFF < v) :
    s.setPC v = .error (.addressOverflow v) := if_pos h

/-- `SetPC` of a 12-bit value never raises. -/
theorem State.setPC_addr (s : State) (a : Addr) : s.setPC a.toNat = .ok { s with pc := a } := by
  rw [State.setPC_ok _ (by have := a.isLt; omega)]
  simp

/-- A skip goes 2 further when taken, stays when not, and raises only past the end. -/
theorem State.skipIf_cases (s : State) (c : Bool) :
    (skipFault c s = none ∧ s.skipIf c = .next { s with pc := if c then s.pc + 2#12 else s.pc }) ∨
    ∃ f, skipFault c s = some f ∧ s.skipIf c = .fault f := by
  unfold skipFault State.skipIf overPc
  cases c
  · exact .inl ⟨rfl, rfl⟩
  · simp only [if_true]
    by_cases h : s.pc.toNat + 2 > 0xFFF
    · right
      simp [h, State.skip, State.setPC, finish, raise]
    · left
      refine ⟨by simp [h], ?_⟩
      unfold State.skip
      rw [State.setPC_ok _ (by omega)]
      simp only [finish]
      rfl

/-- The fetch: a fault of R123, or the two bytes at `pc` as a word, high byte first, and `pc` advanced
by 2. -/
theorem State.fetch_cases (s : State) :
    (fetchFaultOf s = none ∧ fetchable s.pc ∧
      s.fetch = .ok (wordOfBytes (s.mem.read s.pc.toNat) (s.mem.read (s.pc.toNat + 1)),
        { s with pc := s.pc + 2#12 })) ∨
    ∃ f, fetchFaultOf s = some f ∧ s.fetch = .error f := by
  have hpc : s.pc.toNat < 4096 := s.pc.isLt
  unfold fetchFaultOf
  split
  · rename_i h
    exact .inr ⟨_, rfl, by simp [State.fetch, State.memRead, checkAccess_block h]⟩
  · rename_i h
    have h0 : Memory.InRange s.pc.toNat := by simp [Memory.InRange, Config.blockHi, Config.memSize]; omega
    split
    · rename_i e
      refine .inr ⟨_, rfl, ?_⟩
      rw [State.fetch, State.memRead, checkAccess_ok h0]
      simp [State.memRead, e, checkAccess_over]
    · have h1 : Memory.InRange (s.pc.toNat + 1) := by
        simp [Memory.InRange, Config.blockHi, Config.memSize]; omega
      split
      · rename_i e
        refine .inr ⟨_, rfl, ?_⟩
        rw [State.fetch, State.memRead, checkAccess_ok h0, State.memRead, checkAccess_ok h1]
        simp [State.setPC, e]
      · refine .inl ⟨rfl, ⟨by omega, by omega⟩, ?_⟩
        rw [State.fetch, State.memRead, checkAccess_ok h0, State.memRead, checkAccess_ok h1]
        simp only
        rw [State.setPC_ok _ (by omega)]
        simp only
        rfl

/-- `KeyDown(k)`. -/
theorem State.keyDown_ok (s : State) {k : Byte} (h : k.toNat ≤ 15) :
    s.keyDown k = .ok (s.keys.getLsbD k.toNat) := by
  unfold State.keyDown
  rw [if_neg (by simp [Config.nkeys]; omega)]

theorem State.keyDown_over (s : State) {k : Byte} (h : 15 < k.toNat) :
    s.keyDown k = .error (.operandOutOfRange k.toNat) := by
  unfold State.keyDown
  rw [if_pos (by simp [Config.nkeys]; omega)]

/-- `V0` to `VX` as bytes. -/
theorem State.length_regsUpTo (s : State) {n : Nat} (h : n ≤ 16) : (s.regsUpTo n).length = n := by
  simp [State.regsUpTo, h]

theorem State.getElem_regsUpTo (s : State) (n : Nat) (r : Reg) (h : r.toNat < (s.regsUpTo n).length) :
    (s.regsUpTo n)[r.toNat] = s.reg r := by
  simp [State.regsUpTo, State.reg]

end Sys2Proof.Machine
end

