-- ==== Sys2Proof/Laws/Flow.lean ====
section
/-! SUPPORT. What a call and a return can answer, with the stack slot read as a number. -/

namespace Sys2Proof.Machine

/-- Everything a return can answer (R142). -/
theorem execRet_eq (s : State) : execRet s =
    if s.sp.toNat < 2 then .fault (.addressOverflow s.sp.toNat)
    else if poppedValue s ≤ 0xFFF then
      .next { s with sp := s.sp - 2#8, pc := BitVec.ofNat 12 (poppedValue s) }
    else .fault (.addressOverflow (poppedValue s)) := by
  unfold execRet
  split
  · rfl
  · rename_i h
    have h2 : 2 ≤ s.sp.toNat := by omega
    have hs : (s.sp - 2#8).toNat = s.sp.toNat - 2 := by
      have := s.sp.isLt
      rw [BitVec.toNat_sub]; simp; omega
    have : (({ s with sp := s.sp - 2#8 } : State).stackRead16 (s.sp - 2#8).toNat).toNat =
        poppedValue s := by
      rw [State.toNat_stackRead16, hs]
      unfold poppedValue
      have := s.sp.isLt
      rw [show 0x1FE - (s.sp.toNat - 2) = 0x200 - s.sp.toNat by omega,
        show 0x200 - s.sp.toNat + 1 = 0x201 - s.sp.toNat by omega]
    simp only [this]
    split
    · rename_i h3; rw [State.setPC_ok _ h3]; rfl
    · rename_i h3; rw [State.setPC_over _ (by omega)]; rfl

/-- Everything a call can answer (R144). -/
theorem execCallNnn_eq (nnn : Addr) (s : State) : execCallNnn nnn s =
    if s.sp.toNat > 252 then .fault (.addressOverflow s.sp.toNat)
    else .next { s.stackWrite16 s.sp.toNat s.pc with sp := s.sp + 2#8, pc := nnn } := by
  unfold execCallNnn
  by_cases h : s.sp.toNat > 252
  · rw [if_pos (by exact h), if_pos h]; rfl
  · rw [if_neg (by exact h), if_neg h]; simp only [State.setPC_addr]; rfl

end Sys2Proof.Machine
end

