-- ==== Sys2Proof/Laws/PerInstr.lean ====
section
/-! SUPPORT. Statements made per instruction: the word of an instruction lies in its row of the opcode
table (30_encoding.md R96: a word selects the row when its AND with the mask is the match). -/

namespace Sys2Proof.Laws.TableRow

/-- The encoded word of `i` selects the row of `i`. -/
def Statement (i : Instr) : Prop := encode i &&& i.mask = i.matchBits

/-- Format `tNNN` under the mask 0xF000. -/
theorem wordNnn_row (t : Nibble) (nnn : Addr) : wordNnn t nnn &&& 0xF000#16 = t ++ 0x000#12 := by
  rw [wordNnn, show 0xF000#16 = (0xF#4 ++ 0x000#12 : BitVec 16) from rfl, BitVec.and_append,
    show 0xF#4 = BitVec.allOnes 4 from rfl, BitVec.and_allOnes, BitVec.and_zero]

/-- Format `tXNN` under the mask 0xF000. -/
theorem wordXnn_row (t : Nibble) (x : Reg) (nn : Byte) :
    wordXnn t x nn &&& 0xF000#16 = (t ++ 0x0#4 : BitVec 8) ++ 0x00#8 := by
  rw [wordXnn, show 0xF000#16 = ((0xF#4 ++ 0x0#4 : BitVec 8) ++ 0x00#8 : BitVec 16) from rfl,
    BitVec.and_append, BitVec.and_append, show 0xF#4 = BitVec.allOnes 4 from rfl, BitVec.and_allOnes,
    BitVec.and_zero, BitVec.and_zero]

/-- Format `tXss` under the mask 0xF0FF. -/
theorem wordXss_row (t : Nibble) (x : Reg) (ss : Byte) :
    wordXnn t x ss &&& 0xF0FF#16 = (t ++ 0x0#4 : BitVec 8) ++ ss := by
  rw [wordXnn, show 0xF0FF#16 = ((0xF#4 ++ 0x0#4 : BitVec 8) ++ 0xFF#8 : BitVec 16) from rfl,
    BitVec.and_append, BitVec.and_append, show 0xF#4 = BitVec.allOnes 4 from rfl,
    show 0xFF#8 = BitVec.allOnes 8 from rfl, BitVec.and_allOnes, BitVec.and_allOnes, BitVec.and_zero]

/-- Format `tXYN` under the mask 0xF000. -/
theorem wordXyn_row (t : Nibble) (x y : Reg) (n : Nibble) :
    wordXys t x y n &&& 0xF000#16 = (t ++ 0x0#4 : BitVec 8) ++ 0x00#8 := by
  rw [wordXys, show 0xF000#16 = ((0xF#4 ++ 0x0#4 : BitVec 8) ++ 0x00#8 : BitVec 16) from rfl,
    BitVec.and_append, BitVec.and_append, show 0xF#4 = BitVec.allOnes 4 from rfl, BitVec.and_allOnes,
    BitVec.and_zero, BitVec.and_zero]

/-- Format `tXYs` under the mask 0xF00F. -/
theorem wordXys_row (t : Nibble) (x y : Reg) (s : Nibble) :
    wordXys t x y s &&& 0xF00F#16 = (t ++ 0x0#4 : BitVec 8) ++ (0x0#4 ++ s : BitVec 8) := by
  rw [wordXys, show 0xF00F#16 = ((0xF#4 ++ 0x0#4 : BitVec 8) ++ (0x0#4 ++ 0xF#4 : BitVec 8) : BitVec 16)
    from rfl, BitVec.and_append, BitVec.and_append, BitVec.and_append,
    show 0xF#4 = BitVec.allOnes 4 from rfl, BitVec.and_allOnes, BitVec.and_allOnes, BitVec.and_zero,
    BitVec.and_zero]

theorem cls : Statement (.cls) := rfl
theorem ret : Statement (.ret) := rfl
theorem jpNnn (nnn : Addr) : Statement (.jpNnn nnn) := wordNnn_row _ nnn
theorem callNnn (nnn : Addr) : Statement (.callNnn nnn) := wordNnn_row _ nnn
theorem seVxNn (x : Reg) (nn : Byte) : Statement (.seVxNn x nn) := wordXnn_row _ x nn
theorem sneVxNn (x : Reg) (nn : Byte) : Statement (.sneVxNn x nn) := wordXnn_row _ x nn
theorem seVxVy (x : Reg) (y : Reg) (n : Nibble) : Statement (.seVxVy x y n) := wordXyn_row _ x y n
theorem ldVxNn (x : Reg) (nn : Byte) : Statement (.ldVxNn x nn) := wordXnn_row _ x nn
theorem addVxNn (x : Reg) (nn : Byte) : Statement (.addVxNn x nn) := wordXnn_row _ x nn
theorem ldVxVy (x : Reg) (y : Reg) : Statement (.ldVxVy x y) := wordXys_row _ x y _
theorem orVxVy (x : Reg) (y : Reg) : Statement (.orVxVy x y) := wordXys_row _ x y _
theorem andVxVy (x : Reg) (y : Reg) : Statement (.andVxVy x y) := wordXys_row _ x y _
theorem xorVxVy (x : Reg) (y : Reg) : Statement (.xorVxVy x y) := wordXys_row _ x y _
theorem addVxVy (x : Reg) (y : Reg) : Statement (.addVxVy x y) := wordXys_row _ x y _
theorem subVxVy (x : Reg) (y : Reg) : Statement (.subVxVy x y) := wordXys_row _ x y _
theorem shrVx (x : Reg) (y : Reg) : Statement (.shrVx x y) := wordXys_row _ x y _
theorem subnVxVy (x : Reg) (y : Reg) : Statement (.subnVxVy x y) := wordXys_row _ x y _
theorem shlVx (x : Reg) (y : Reg) : Statement (.shlVx x y) := wordXys_row _ x y _
theorem sneVxVy (x : Reg) (y : Reg) (n : Nibble) : Statement (.sneVxVy x y n) := wordXyn_row _ x y n
theorem ldINnn (nnn : Addr) : Statement (.ldINnn nnn) := wordNnn_row _ nnn
theorem jpV0Nnn (nnn : Addr) : Statement (.jpV0Nnn nnn) := wordNnn_row _ nnn
theorem rndVxNn (x : Reg) (nn : Byte) : Statement (.rndVxNn x nn) := wordXnn_row _ x nn
theorem drwVxVyN (x : Reg) (y : Reg) (n : Nibble) : Statement (.drwVxVyN x y n) := wordXyn_row _ x y n
theorem skpVx (x : Reg) : Statement (.skpVx x) := wordXss_row _ x _
theorem sknpVx (x : Reg) : Statement (.sknpVx x) := wordXss_row _ x _
theorem ldVxDt (x : Reg) : Statement (.ldVxDt x) := wordXss_row _ x _
theorem ldVxK (x : Reg) : Statement (.ldVxK x) := wordXss_row _ x _
theorem ldDtVx (x : Reg) : Statement (.ldDtVx x) := wordXss_row _ x _
theorem ldStVx (x : Reg) : Statement (.ldStVx x) := wordXss_row _ x _
theorem addIVx (x : Reg) : Statement (.addIVx x) := wordXss_row _ x _
theorem ldFVx (x : Reg) : Statement (.ldFVx x) := wordXss_row _ x _
theorem ldBVx (x : Reg) : Statement (.ldBVx x) := wordXss_row _ x _
theorem ldMemVx (x : Reg) : Statement (.ldMemVx x) := wordXss_row _ x _
theorem ldVxMem (x : Reg) : Statement (.ldVxMem x) := wordXss_row _ x _

end Sys2Proof.Laws.TableRow
end

