-- ==== Sys2Proof/Tests/Slice0.lean ====
section
/-! SUPPORT. The model's own tests: the ill-formed terms that the checks refuse, one word of each
instruction written out from its encoding (30_encoding.md R96), at most two steps per instruction with
the results of 95_test_vectors.md (the vector's name stands before each), and for every statement with
hypotheses a state and operands that meet them. -/

open Sys2Proof Sys2Proof.Machine Sys2Proof.Claims

namespace Sys2Proof.Tests

/-! ## Ill-formed terms are refused -/

theorem test_wf_seVxVy : (Instr.seVxVy 0x1#4 0x2#4 0x5#4).wellFormed = false := by decide
theorem test_wf_sneVxVy : (Instr.sneVxVy 0x1#4 0x2#4 0xA#4).wellFormed = false := by decide
theorem test_wf_shrVx : (Instr.shrVx 0x1#4 0x2#4).wellFormed = false := by decide
theorem test_wf_shlVx : (Instr.shlVx 0x1#4 0x2#4).wellFormed = false := by decide
theorem test_wf_canonical : (Instr.shlVx 0x1#4 0x2#4).canonical.wellFormed = true := by decide

/-! ## Each instruction's word, written out from the encoding table, and words that are none -/

theorem test_decode_cls : decodeWord 0b0000_0000_1110_0000#16 = .ok .cls := by decide
theorem test_decode_ret : decodeWord 0b0000_0000_1110_1110#16 = .ok .ret := by decide
theorem test_decode_jpNnn : decodeWord 0b0001_0010_0011_0100#16 = .ok (.jpNnn 0x234#12) := by decide
theorem test_decode_callNnn :
    decodeWord 0b0010_1010_1011_1100#16 = .ok (.callNnn 0xABC#12) := by decide
theorem test_decode_seVxNn :
    decodeWord 0b0011_0001_0101_1010#16 = .ok (.seVxNn 0x1#4 0x5A#8) := by decide
theorem test_decode_sneVxNn :
    decodeWord 0b0100_0010_0001_0001#16 = .ok (.sneVxNn 0x2#4 0x11#8) := by decide
theorem test_decode_seVxVy :
    decodeWord 0b0101_1010_1011_0111#16 = .ok (.seVxVy 0xA#4 0xB#4 0x7#4) := by decide
theorem test_decode_ldVxNn :
    decodeWord 0b0110_1010_0010_1011#16 = .ok (.ldVxNn 0xA#4 0x2B#8) := by decide
theorem test_decode_addVxNn :
    decodeWord 0b0111_0001_1111_1110#16 = .ok (.addVxNn 0x1#4 0xFE#8) := by decide
theorem test_decode_ldVxVy :
    decodeWord 0b1000_0011_1010_0000#16 = .ok (.ldVxVy 0x3#4 0xA#4) := by decide
theorem test_decode_orVxVy :
    decodeWord 0b1000_0011_1010_0001#16 = .ok (.orVxVy 0x3#4 0xA#4) := by decide
theorem test_decode_andVxVy :
    decodeWord 0b1000_0011_1010_0010#16 = .ok (.andVxVy 0x3#4 0xA#4) := by decide
theorem test_decode_xorVxVy :
    decodeWord 0b1000_0011_1010_0011#16 = .ok (.xorVxVy 0x3#4 0xA#4) := by decide
theorem test_decode_addVxVy :
    decodeWord 0b1000_0011_1010_0100#16 = .ok (.addVxVy 0x3#4 0xA#4) := by decide
theorem test_decode_subVxVy :
    decodeWord 0b1000_0011_1010_0101#16 = .ok (.subVxVy 0x3#4 0xA#4) := by decide
theorem test_decode_shrVx :
    decodeWord 0b1000_0011_1010_0110#16 = .ok (.shrVx 0x3#4 0xA#4) := by decide
theorem test_decode_subnVxVy :
    decodeWord 0b1000_0011_1010_0111#16 = .ok (.subnVxVy 0x3#4 0xA#4) := by decide
theorem test_decode_shlVx :
    decodeWord 0b1000_0011_1010_1110#16 = .ok (.shlVx 0x3#4 0xA#4) := by decide
theorem test_decode_sneVxVy :
    decodeWord 0b1001_0011_0100_1010#16 = .ok (.sneVxVy 0x3#4 0x4#4 0xA#4) := by decide
theorem test_decode_ldINnn : decodeWord 0b1010_0011_0000_0001#16 = .ok (.ldINnn 0x301#12) := by decide
theorem test_decode_jpV0Nnn :
    decodeWord 0b1011_1111_0000_0010#16 = .ok (.jpV0Nnn 0xF02#12) := by decide
theorem test_decode_rndVxNn :
    decodeWord 0b1100_1010_0101_1011#16 = .ok (.rndVxNn 0xA#4 0x5B#8) := by decide
theorem test_decode_drwVxVyN :
    decodeWord 0b1101_0001_0010_0101#16 = .ok (.drwVxVyN 0x1#4 0x2#4 0x5#4) := by decide
theorem test_decode_skpVx : decodeWord 0b1110_0001_1001_1110#16 = .ok (.skpVx 0x1#4) := by decide
theorem test_decode_sknpVx : decodeWord 0b1110_1110_1010_0001#16 = .ok (.sknpVx 0xE#4) := by decide
theorem test_decode_ldVxDt : decodeWord 0b1111_0010_0000_0111#16 = .ok (.ldVxDt 0x2#4) := by decide
theorem test_decode_ldVxK : decodeWord 0b1111_0010_0000_1010#16 = .ok (.ldVxK 0x2#4) := by decide
theorem test_decode_ldDtVx : decodeWord 0b1111_0010_0001_0101#16 = .ok (.ldDtVx 0x2#4) := by decide
theorem test_decode_ldStVx : decodeWord 0b1111_0010_0001_1000#16 = .ok (.ldStVx 0x2#4) := by decide
theorem test_decode_addIVx : decodeWord 0b1111_0010_0001_1110#16 = .ok (.addIVx 0x2#4) := by decide
theorem test_decode_ldFVx : decodeWord 0b1111_0010_0010_1001#16 = .ok (.ldFVx 0x2#4) := by decide
theorem test_decode_ldBVx : decodeWord 0b1111_0010_0011_0011#16 = .ok (.ldBVx 0x2#4) := by decide
theorem test_decode_ldMemVx : decodeWord 0b1111_0010_0101_0101#16 = .ok (.ldMemVx 0x2#4) := by decide
theorem test_decode_ldVxMem : decodeWord 0b1111_0010_0110_0101#16 = .ok (.ldVxMem 0x2#4) := by decide
theorem test_decode_family0 : decodeWord 0b0000_0000_1110_0001#16 = .error (.family0 0x0E1#12) := by
  decide
theorem test_decode_family8 :
    decodeWord 0b1000_1010_1011_1000#16 = .error (.family8 0x8#4) := by decide
theorem test_decode_familyE : decodeWord 0b1110_0001_1001_1111#16 = .error (.familyE 0x9F#8) := by
  decide
theorem test_decode_familyF : decodeWord 0b1111_0001_0101_0100#16 = .error (.familyF 0x54#8) := by
  decide
theorem test_decode_truncated : decode [0x12#8] = .error .truncated := by decide
/-- The byte at the lower address is the high byte (R70). -/
theorem test_decode_bytes : decode [0x12#8, 0x34#8, 0xFF#8] = .ok (.jpNnn 0x234#12, [0xFF#8]) := by
  decide
theorem test_decodeTableWord : decodeTableWord 16 0xF155 = some (.ldMemVx 0x1#4) := by decide

/-! ## One step each (the vectors of 95_test_vectors.md) -/

/-- The state after reset with `pc` at an address and a word placed there. -/
def startAt (pc : Addr) (w : Word) : State := { State.reset with pc := pc }.placeWord w

/-- The same at 0x200. -/
def start (w : Word) : State := startAt 0x200#12 w

/-- One byte of memory set. -/
def poke (s : State) (a : Nat) (b : Byte) : State := { s with mem := s.mem.write a b }

/-- One pixel on. -/
def light (s : State) (x y : Nat) : State := { s with fb := s.fb.setPixel x y true }

/-- What is seen of the next state, if the step has one. -/
def seen {α : Type} (f : State → α) (s : State) : Option α :=
  match step s with
  | .next t => some (f t)
  | .fault _ => none
  | .refused _ => none

/-- The fault a step ends in, if it does. -/
def faulted (s : State) : Option Fault :=
  match step s with
  | .next _ => none
  | .fault f => some f
  | .refused _ => none

/-- T0.1 -/
theorem test_cls : seen (fun t => (t.pc, t.fb.pixel 3 4, t.fb.pixel 63 31))
    (light (light (start 0x00E0#16) 3 4) 63 31) = some (0x202#12, false, false) := by decide

/-- T0.4 -/
theorem test_ret : seen (fun t => (t.pc, t.sp))
    (poke (poke { startAt 0x300#12 0x00EE#16 with sp := 4#8 } 0x1FC 0x03#8) 0x1FD 0x45#8) =
      some (0x345#12, 2#8) := by decide

/-- T0.6 -/
theorem test_ret_overwritten : faulted
    (poke (poke { start 0x00EE#16 with sp := 2#8 } 0x1FE 0x12#8) 0x1FF 0x34#8) =
      some (.addressOverflow 0x1234) := by decide

/-- T1.2 -/
theorem test_jp_self : seen (fun t => decide (t = start 0x1200#16)) (start 0x1200#16) = some true := by
  decide

/-- T2.2 -/
theorem test_call : seen (fun t => (t.pc, t.sp, t.mem.read 0x1FA, t.mem.read 0x1FB))
    { startAt 0x2FE#12 0x2ABC#16 with sp := 4#8 } = some (0xABC#12, 6#8, 0x03#8, 0x00#8) := by decide

/-- T2.4 -/
theorem test_call_full : faulted { startAt 0x400#12 0x2300#16 with sp := 254#8 } =
    some (.addressOverflow 254) := by decide

/-- T3.3 -/
theorem test_se_taken : seen State.pc ((start 0x3F01#16).setReg VF 0x01#8) = some 0x204#12 := by
  decide

/-- T3.5 -/
theorem test_se_not_taken : seen State.pc ((startAt 0xFFC#12 0x30AA#16).setReg 0x0#4 0xAB#8) =
    some 0xFFE#12 := by decide

/-- T4.1 -/
theorem test_sne_taken : seen State.pc ((startAt 0x300#12 0x4211#16).setReg 0x2#4 0x10#8) =
    some 0x304#12 := by decide

/-- T4.2 -/
theorem test_sne_not_taken : seen State.pc ((startAt 0x300#12 0x4210#16).setReg 0x2#4 0x10#8) =
    some 0x302#12 := by decide

/-- T5.4: the low nibble is not examined. -/
theorem test_se_registers : seen State.pc
    (((start 0x5345#16).setReg 0x3#4 0x7F#8).setReg 0x4#4 0x7F#8) = some 0x204#12 := by decide

/-- T6.2 -/
theorem test_ld_immediate : seen (fun t => (t.reg VF, t.reg 0x0#4)) (start 0x6FFF#16) =
    some (0xFF#8, 0x00#8) := by decide

/-- T7.2: no flag. -/
theorem test_add_immediate : seen (fun t => (t.reg 0x0#4, t.reg VF))
    ((start 0x7002#16).setReg 0x0#4 0xFF#8) = some (0x01#8, 0x00#8) := by decide

/-- T8.3 -/
theorem test_ld_register : seen (fun t => (t.reg 0x1#4, t.reg VF))
    ((start 0x81F0#16).setReg VF 0x01#8) = some (0x01#8, 0x01#8) := by decide

/-- T8.4 -/
theorem test_or : seen (fun t => (t.reg 0x0#4, t.reg 0x1#4, t.reg VF))
    ((((start 0x8011#16).setReg 0x0#4 0xF0#8).setReg 0x1#4 0x0F#8).setReg VF 0x01#8) =
      some (0xFF#8, 0x0F#8, 0x01#8) := by decide

/-- T8.5 -/
theorem test_and : seen (fun t => (t.reg 0x0#4, t.reg VF))
    ((((start 0x8012#16).setReg 0x0#4 0xF0#8).setReg 0x1#4 0x3C#8).setReg VF 0x01#8) =
      some (0x30#8, 0x01#8) := by decide

/-- T8.6 -/
theorem test_xor : seen (fun t => (t.reg 0x0#4, t.reg VF))
    ((((start 0x8013#16).setReg 0x0#4 0xF0#8).setReg 0x1#4 0x3C#8).setReg VF 0x01#8) =
      some (0xCC#8, 0x01#8) := by decide

/-- T8.8 -/
theorem test_add : seen (fun t => (t.reg 0x0#4, t.reg VF))
    (((start 0x8014#16).setReg 0x0#4 0xC8#8).setReg 0x1#4 0x64#8) = some (0x2C#8, 0x01#8) := by decide

/-- T8.14: with `X = F` the flag is what remains. -/
theorem test_add_to_flag : seen (fun t => t.reg VF)
    (((start 0x8F14#16).setReg VF 0x03#8).setReg 0x1#4 0x01#8) = some 0x00#8 := by decide

/-- T8.16 -/
theorem test_sub : seen (fun t => (t.reg 0x0#4, t.reg VF))
    (((start 0x8015#16).setReg 0x0#4 0x05#8).setReg 0x1#4 0x0A#8) = some (0xFB#8, 0x01#8) := by decide

/-- T8.18: equal operands borrow nothing. -/
theorem test_sub_equal : seen (fun t => (t.reg 0x0#4, t.reg VF))
    ((((start 0x8015#16).setReg 0x0#4 0x07#8).setReg 0x1#4 0x07#8).setReg VF 0x01#8) =
      some (0x00#8, 0x00#8) := by decide

/-- T8.25: `Y` is ignored. -/
theorem test_shr : seen (fun t => (t.reg 0x3#4, t.reg 0x4#4, t.reg VF))
    (((start 0x8346#16).setReg 0x3#4 0x07#8).setReg 0x4#4 0xFE#8) =
      some (0x03#8, 0xFE#8, 0x01#8) := by decide

/-- T8.30 -/
theorem test_subn : seen (fun t => (t.reg 0x0#4, t.reg VF))
    (((start 0x8017#16).setReg 0x0#4 0x0A#8).setReg 0x1#4 0x05#8) = some (0xFB#8, 0x01#8) := by decide

/-- T8.32 -/
theorem test_shl : seen (fun t => (t.reg 0x3#4, t.reg VF)) ((start 0x830E#16).setReg 0x3#4 0x81#8) =
    some (0x02#8, 0x01#8) := by decide

/-- T8.37 -/
theorem test_shl_flag : seen (fun t => t.reg VF) ((start 0x8F0E#16).setReg VF 0x40#8) =
    some 0x00#8 := by decide

/-- T9.4 -/
theorem test_sne_registers : seen State.pc
    (((start 0x934A#16).setReg 0x3#4 0x01#8).setReg 0x4#4 0x02#8) = some 0x204#12 := by decide

/-- TA.3 -/
theorem test_ld_index : seen (fun t => (t.i, t.pc)) (start 0xAFFF#16) = some (0xFFF#12, 0x202#12) := by
  decide

/-- TB.2: always `V0`. -/
theorem test_jp_v0 : seen State.pc ((start 0xB300#16).setReg 0x3#4 0x77#8) = some 0x300#12 := by
  decide

/-- TB.5 -/
theorem test_jp_v0_over : faulted ((start 0xBF02#16).setReg 0x0#4 0xFE#8) =
    some (.addressOverflow 0x1000) := by decide

/-- TC.3: with `NN = 0` the result does not depend on the byte drawn. -/
theorem test_rnd_zero : seen (fun t => t.draws) ((start 0xC000#16).setReg 0x0#4 0x11#8) = some 1 ∧
    ∀ b : Byte, randCombine b 0x00#8 = 0x00#8 := by decide

/-- TD.1 -/
theorem test_drw_wraps : seen
    (fun t => (t.fb.pixel 62 31, t.fb.pixel 63 31, t.fb.pixel 4 31, t.fb.pixel 5 31, t.fb.pixel 6 31))
    (((poke { start 0xD121#16 with i := 0x210#12 } 0x210 0xC3#8).setReg 0x1#4 0x3E#8).setReg 0x2#4 0x1F#8)
      = some (true, true, true, true, false) := by decide

/-- TD.3 -/
theorem test_drw_hits : seen (fun t => (t.reg VF, t.fb.pixel 10 5, t.fb.pixel 15 5))
    ((((light (poke { start 0xD011#16 with i := 0x300#12 } 0x300 0xFF#8) 10 5).setReg 0x0#4
      0x08#8).setReg 0x1#4 0x05#8)) = some (0x01#8, false, true) := by decide

/-- TE.5: key F is bit 15. -/
theorem test_skp : seen State.pc ({ start 0xE19E#16 with keys := 0x8000#16 }.setReg 0x1#4 0x0F#8) =
    some 0x204#12 := by decide

/-- TE.6 -/
theorem test_skp_range : faulted ({ start 0xE19E#16 with keys := 0xFFFF#16 }.setReg 0x1#4 0x10#8) =
    some (.operandOutOfRange 16) := by decide

/-- TE.3 -/
theorem test_sknp : seen State.pc ({ start 0xE0A1#16 with keys := 0x0020#16 }.setReg 0x0#4 0x05#8) =
    some 0x202#12 := by decide

/-- TF.1 -/
theorem test_ld_dt : seen (fun t => t.reg 0x2#4) { start 0xF207#16 with dt := 60#8 } =
    some 0x3C#8 := by decide

/-- TF.9 -/
theorem test_key_wait : stepStatus (startAt 0xFFC#12 0xF30A#16) = some .awaitingKey ∧
    seen State.pc (startAt 0xFFC#12 0xF30A#16) = some 0xFFC#12 := by decide

/-- TF.6: key 9 only, the low byte is 0. -/
theorem test_key_taken : seen (fun t => (t.reg 0x3#4, t.pc))
    ({ start 0xF30A#16 with keys := 0x0200#16 }.setReg 0x3#4 0x77#8) = some (0x00#8, 0x202#12) := by
  decide

/-- TF.2 -/
theorem test_set_dt : seen (fun t => (t.dt, t.st)) ((start 0xF215#16).setReg 0x2#4 0x3C#8) =
    some (60#8, 0#8) := by decide

/-- TF.3 -/
theorem test_set_st : seen (fun t => (t.dt, t.st)) ((start 0xF018#16).setReg 0x0#4 0x05#8) =
    some (0#8, 5#8) := by decide

/-- TF.11 -/
theorem test_add_index : seen (fun t => (t.i, t.reg VF))
    ({ start 0xF11E#16 with i := 0xFFF#12 }.setReg 0x1#4 0x01#8) = some (0x000#12, 0x00#8) := by
  decide

/-- TF.15 -/
theorem test_glyph : seen State.i ((start 0xF029#16).setReg 0x0#4 0x0F#8) = some 0x09B#12 := by decide

/-- TF.17 -/
theorem test_glyph_range : faulted ((start 0xF029#16).setReg 0x0#4 0x10#8) =
    some (.operandOutOfRange 16) := by decide

/-- TF.18: the source's example, 156. -/
theorem test_bcd : seen (fun t => (t.mem.read 0x300, t.mem.read 0x301, t.mem.read 0x302))
    ({ start 0xF033#16 with i := 0x300#12 }.setReg 0x0#4 0x9C#8) = some (1#8, 5#8, 6#8) := by decide

/-- TF.24 -/
theorem test_bcd_private : faulted ({ start 0xF033#16 with i := 0x04E#12 }.setReg 0x0#4 0x64#8) =
    some (.privateRegionAccess 0x04E) := by decide

/-- TF.26 -/
theorem test_store : seen (fun t => (t.i, t.mem.read 0x208, t.mem.read 0x209, t.mem.read 0x20A))
    ((({ start 0xF155#16 with i := 0x208#12 }.setReg 0x0#4 0x12#8).setReg 0x1#4 0x0A#8).setReg
      0x2#4 0x99#8) = some (0x208#12, 0x12#8, 0x0A#8, 0x00#8) := by decide

/-- TF.28 -/
theorem test_store_over : faulted ({ start 0xF155#16 with i := 0xFFF#12 }.setReg 0x0#4 0xAB#8) =
    some (.addressOverflow 0x1000) := by decide

/-- TF.32 -/
theorem test_load : seen (fun t => (t.i, t.reg 0x0#4, t.reg 0x2#4, t.reg 0x3#4))
    ((poke (poke (poke { start 0xF265#16 with i := 0x300#12 } 0x300 0x01#8) 0x302 0x06#8) 0x303
      0x07#8).setReg 0x3#4 0xEE#8) = some (0x300#12, 0x01#8, 0x06#8, 0xEE#8) := by decide

/-- TF.33: byte 0 of `FONT`. -/
theorem test_load_font : seen (fun t => t.reg 0x0#4) { start 0xF065#16 with i := 0x050#12 } =
    some 0xF0#8 := by decide

/-- T8.38 -/
theorem test_unsupported : stepStatus ((start 0x8018#16).setReg VF 0x01#8) = some .unsupportedOpcode ∧
    seen (fun t => (t.pc, t.reg VF)) ((start 0x8018#16).setReg VF 0x01#8) =
      some (0x202#12, 0x01#8) := by decide

/-- S7 -/
theorem test_load_program :
    (hostLoad [0x12#8, 0x00#8, 0xAA#8] State.reset).mem = [(0x200, 0x12#8), (0x202, 0xAA#8)] := by
  decide

/-- S4 -/
theorem test_toggle_wraps : (togglePixel blankDisplay 66 0).2.pixel 2 0 = true ∧
    (togglePixel blankDisplay 7 33).2.pixel 7 1 = true := by decide

/-! ## States and operands that meet the hypotheses of the statements -/

/-- A step from reset has a next state (of `StepKeepsTheInvariant`). -/
theorem witness_StepKeepsTheInvariant : (start 0x2300#16).Inv ∧
    ∃ t, step (start 0x2300#16) = .next t :=
  ⟨by decide, _, rfl⟩

/-- A state reached by a load, a key and a step. -/
theorem witness_ReachableStatesMeetTheInvariant : ∃ s : State, Reachable s ∧ s.sp = 2#8 :=
  ⟨_, ⟨[.load [0x22#8, 0x00#8], .setKeys 0x0104#16, .step, .timerTick], _, rfl, rfl⟩, rfl⟩

/-- One address on the stack, a call, and a store next to the stack region. -/
def oneSlot : State := poke (poke { start 0x2300#16 with sp := 2#8 } 0x1FE 0x02#8) 0x1FF 0x06#8

theorem oneSlot_holds : SlotsHoldAddresses oneSlot := by
  intro k hk
  have : k = 0 := by
    have : oneSlot.sp.toNat = 2 := rfl
    omega
  subst k
  decide

theorem witness_StackSlotsStayAddresses_call : oneSlot.sp.toNat % 2 = 0 ∧ SlotsHoldAddresses oneSlot ∧
    (∀ a n, (∀ nnn, Instr.callNnn 0x300#12 ≠ .callNnn nnn) →
      storesAt (.callNnn 0x300#12) oneSlot = some (a, n) → a + n ≤ 0x100 ∨ 0x200 ≤ a) ∧
    ∃ t, exec (.callNnn 0x300#12) oneSlot = .next t :=
  ⟨by decide, oneSlot_holds, fun _ _ h => absurd rfl (h _), _, rfl⟩

theorem witness_StackSlotsStayAddresses_store :
    { oneSlot with i := 0x200#12 }.sp.toNat % 2 = 0 ∧ SlotsHoldAddresses { oneSlot with i := 0x200#12 } ∧
    (∀ a n, (∀ nnn, Instr.ldMemVx 0x0#4 ≠ .callNnn nnn) →
      storesAt (.ldMemVx 0x0#4) { oneSlot with i := 0x200#12 } = some (a, n) →
      a + n ≤ 0x100 ∨ 0x200 ≤ a) ∧
    ∃ t, exec (.ldMemVx 0x0#4) { oneSlot with i := 0x200#12 } = .next t :=
  ⟨by decide, oneSlot_holds, fun a n _ h => by cases h; decide, _, rfl⟩

theorem witness_CanonicalMemoriesThatReadAlikeAreEqual :
    (Memory.write (Memory.write [] 0x300 1#8) 0x050 7#8).wf = true ∧
    (Memory.write (Memory.write [] 0x050 7#8) 0x300 1#8).wf = true ∧
    ∀ a, Memory.read (Memory.write (Memory.write [] 0x300 1#8) 0x050 7#8) a =
      Memory.read (Memory.write (Memory.write [] 0x050 7#8) 0x300 1#8) a :=
  ⟨by decide, by decide, fun _ => rfl⟩

theorem witness_EncodeOfDecodeIsTheWord : decodeWord 0x5AB7#16 = .ok (.seVxVy 0xA#4 0xB#4 0x7#4) := by
  decide

/-- The first and the last address at which an instruction can execute. -/
theorem witness_StepRunsTheDecodedInstruction :
    (let s := startAt 0x050#12 0x6A2B#16
     0x050 ≤ s.pc.toNat ∧ s.pc.toNat ≤ 0xFFD ∧
      decodeWord (s.mem.read s.pc.toNat ++ s.mem.read (s.pc.toNat + 1)) = .ok (.ldVxNn 0xA#4 0x2B#8)) ∧
    (let s := startAt 0xFFD#12 0x6A2B#16
     0x050 ≤ s.pc.toNat ∧ s.pc.toNat ≤ 0xFFD ∧
      decodeWord (s.mem.read s.pc.toNat ++ s.mem.read (s.pc.toNat + 1)) =
        .ok (.ldVxNn 0xA#4 0x2B#8)) := by decide

theorem witness_UnsupportedWordAdvancesThePcOnly :
    (let s := startAt 0xFFD#12 0x0FFF#16
     0x050 ≤ s.pc.toNat ∧ s.pc.toNat ≤ 0xFFD ∧
      decodeWord (s.mem.read s.pc.toNat ++ s.mem.read (s.pc.toNat + 1)) =
        .error (.family0 0xFFF#12)) := by decide

/-- Both clauses, at the boundaries 0x04F, 0xFFE and 0xFFF. -/
theorem witness_FetchFaultsWhereNoInstructionCanExecute :
    { State.reset with pc := 0x04F#12 }.pc.toNat ≤ 0x04F ∧
    0xFFE ≤ { State.reset with pc := 0xFFE#12 }.pc.toNat ∧
    faulted { State.reset with pc := 0x04F#12 } = some (.privateRegionAccess 0x04F) ∧
    faulted { State.reset with pc := 0xFFE#12 } = some (.addressOverflow 0x1000) ∧
    faulted { State.reset with pc := 0xFFF#12 } = some (.addressOverflow 0x1000) := by decide

/-- Every clause of the status statement is met: each fault, and a next state of each status, `FX0A` with a
key down among them. -/
theorem witness_StatusSaysHowTheStepEnded :
    faulted { State.reset with pc := 0xFFE#12 } = some (.addressOverflow 0x1000) ∧
    faulted { State.reset with pc := 0x04F#12 } = some (.privateRegionAccess 0x04F) ∧
    faulted ((start 0xF029#16).setReg 0x0#4 0x10#8) = some (.operandOutOfRange 16) ∧
    (let s := start 0x1200#16
     (seen State.pc s).isSome = true ∧ decodeWord (wordAtPc s) = .ok (.jpNnn 0x200#12) ∧
      stepStatus s = some .ok) ∧
    (let s := { start 0xF30A#16 with keys := 0x0100#16 }
     (seen State.pc s).isSome = true ∧ decodeWord (wordAtPc s) = .ok (.ldVxK 0x3#4) ∧
      stepStatus s = some .ok) ∧
    (let s := start 0xF30A#16
     (seen State.pc s).isSome = true ∧ decodeWord (wordAtPc s) = .ok (.ldVxK 0x3#4) ∧
      s.keys = 0x0000#16 ∧ stepStatus s = some .awaitingKey) ∧
    (let s := start 0x0FFF#16
     (seen State.pc s).isSome = true ∧ decodeWord (wordAtPc s) = .error (.family0 0xFFF#12) ∧
      stepStatus s = some .unsupportedOpcode) := by decide

/-- Both cases of the raise points. -/
theorem witness_InstructionsFaultExactlyAtTheRaisePoints :
    faultOf (.callNnn 0x300#12) { State.reset with sp := 253#8 } = some (.addressOverflow 253) ∧
    faultOf (.callNnn 0x300#12) { State.reset with sp := 252#8 } = none := by decide

/-- A fault of the fetch, and one of an instruction fetched. -/
theorem witness_StepFaultsExactlyAtTheRaisePoints :
    fetchFaultOf { State.reset with pc := 0xFFF#12 } = some (.addressOverflow 0x1000) ∧
    fetchFaultOf (start 0x00EE#16) = none ∧
    faultOf .ret { start 0x00EE#16 with pc := 0x202#12 } = some (.addressOverflow 0) := by decide

/-- The targets at which the next step faults, and the jump to itself. -/
theorem witness_JumpGoesToItsTarget : (0x04F#12).toNat ≤ 0x04F ∧ 0xFFE ≤ (0xFFE#12).toNat ∧
    (let s := startAt 0xFFD#12 0x1FFD#16
     0x050 ≤ s.pc.toNat ∧ s.pc.toNat ≤ 0xFFD ∧
      decodeWord (s.mem.read s.pc.toNat ++ s.mem.read (s.pc.toNat + 1)) = .ok (.jpNnn s.pc)) := by
  decide

/-- The deepest call and the first. -/
theorem witness_CallPushesTheFollowingAddress : { State.reset with sp := 252#8 }.sp.toNat ≤ 252 ∧
    State.reset.sp.toNat ≤ 252 := by decide

/-- A slot that holds the largest address, and the deepest slot. -/
theorem witness_ReturnPopsTheAddress :
    (let s := poke (poke { State.reset with sp := 2#8 } 0x1FE 0x0F#8) 0x1FF 0xFF#8
     2 ≤ s.sp.toNat ∧
      256 * (s.mem.read (0x200 - s.sp.toNat)).toNat + (s.mem.read (0x201 - s.sp.toNat)).toNat = 0xFFF) ∧
    (let s := poke (poke { State.reset with sp := 254#8 } 0x102 0x0A#8) 0x103 0xBC#8
     2 ≤ s.sp.toNat ∧
      256 * (s.mem.read (0x200 - s.sp.toNat)).toNat + (s.mem.read (0x201 - s.sp.toNat)).toNat =
        0xABC) := by decide

/-- The three clauses at their boundaries. -/
theorem witness_StackFaults : 252 < { State.reset with sp := 253#8 }.sp.toNat ∧
    { State.reset with sp := 1#8 }.sp.toNat < 2 ∧
    (let s := poke { State.reset with sp := 2#8 } 0x1FE 0x10#8
     2 ≤ s.sp.toNat ∧ 0xFFF < poppedValue s ∧ poppedValue s = 0x1000) := by decide

/-- As many calls as the stack holds. -/
theorem witness_CallsAndReturnsAreSymmetric : State.reset.sp.toNat % 2 = 0 ∧
    State.reset.sp.toNat + 2 * (List.replicate 127 (0x202#12, 0x200#12)).length ≤ 254 := by
  constructor
  · decide
  · simp [State.reset]

/-- Taken with the last room there is, and not taken where there is none. -/
theorem witness_SkipsOnAnImmediate :
    (let s := { State.reset with pc := 0xFFD#12 }
     s.reg 0x1#4 = 0x00#8 ∧ s.pc.toNat + 2 ≤ 0xFFF ∧ s.reg 0x1#4 ≠ 0x01#8) ∧
    (let s := { State.reset with pc := 0xFFF#12 }
     (s.reg 0x1#4 = 0x01#8 → s.pc.toNat + 2 ≤ 0xFFF) ∧
      (s.reg 0x1#4 ≠ 0x00#8 → s.pc.toNat + 2 ≤ 0xFFF)) := by decide

theorem witness_SkipsOnTwoRegisters :
    (let s := { State.reset with pc := 0xFFD#12 }.setReg 0x1#4 0x01#8
     s.reg 0x2#4 = s.reg 0x3#4 ∧ s.reg 0x1#4 ≠ s.reg 0x2#4 ∧ s.pc.toNat + 2 ≤ 0xFFF) ∧
    (let s := { State.reset with pc := 0xFFF#12 }.setReg 0x1#4 0x01#8
     (s.reg 0x1#4 = s.reg 0x2#4 → s.pc.toNat + 2 ≤ 0xFFF) ∧
      (s.reg 0x2#4 ≠ s.reg 0x3#4 → s.pc.toNat + 2 ≤ 0xFFF)) := by decide

/-- Keys F down and 0 up, with room and without. -/
theorem witness_SkipsOnAKey :
    (let s := { State.reset with pc := 0xFFD#12, keys := 0x8000#16 }.setReg 0x1#4 0x0F#8
     (s.reg 0x1#4).toNat ≤ 15 ∧ s.keys.getLsbD (s.reg 0x1#4).toNat = true ∧ s.pc.toNat + 2 ≤ 0xFFF ∧
      s.keys.getLsbD (s.reg 0x0#4).toNat = false) ∧
    (let s := { State.reset with pc := 0xFFF#12, keys := 0x8000#16 }.setReg 0x1#4 0x0F#8
     (s.keys.getLsbD (s.reg 0x0#4).toNat = true → s.pc.toNat + 2 ≤ 0xFFF) ∧
      (s.keys.getLsbD (s.reg 0x1#4).toNat = false → s.pc.toNat + 2 ≤ 0xFFF)) := by decide

/-- Each of the six skips taken with no room: `V1` is 1 and key 1 is down, key 0 up. -/
theorem witness_TakenSkipPastTheEndFaults :
    (let s := { State.reset with pc := 0xFFE#12, keys := 0x0002#16 }.setReg 0x1#4 0x01#8
     0xFFE ≤ s.pc.toNat ∧ s.reg 0x1#4 = 0x01#8 ∧ s.reg 0x1#4 ≠ 0x02#8 ∧ s.reg 0x0#4 = s.reg 0x2#4 ∧
      s.reg 0x1#4 ≠ s.reg 0x0#4 ∧ (s.reg 0x1#4).toNat ≤ 15 ∧
      s.keys.getLsbD (s.reg 0x1#4).toNat = true ∧ s.keys.getLsbD (s.reg 0x0#4).toNat = false) := by
  decide

theorem witness_OperandAbove15Faults :
    15 < ((State.reset.setReg 0x1#4 0x10#8).reg 0x1#4).toNat ∧
    15 < ((State.reset.setReg 0x1#4 0xFF#8).reg 0x1#4).toNat := by decide

/-- A destination that is not `VF`, and both values of each flag. -/
theorem witness_flags : (0x0#4 : Reg) ≠ VF ∧ (0xE#4 : Reg) ≠ VF ∧
    (let s := (State.reset.setReg 0x0#4 0xFF#8).setReg 0x1#4 0x01#8
     (s.reg 0x0#4).toNat + (s.reg 0x1#4).toNat > 255 ∧
       ¬ (s.reg 0x1#4).toNat + (s.reg 0x1#4).toNat > 255 ∧
      (s.reg 0x1#4).toNat < (s.reg 0x0#4).toNat ∧ ¬ (s.reg 0x0#4).toNat < (s.reg 0x1#4).toNat ∧
      (s.reg 0x0#4).toNat % 2 = 1 ∧ 128 ≤ (s.reg 0x0#4).toNat ∧
        ¬ 128 ≤ (s.reg 0x1#4).toNat) := by decide

/-- A sum of 0xFFF and one of 0x1000. -/
theorem witness_IndexedJumpAddsV0 :
    (0xF01#12 : Addr).toNat + ((State.reset.setReg 0x0#4 0xFE#8).reg 0x0#4).toNat ≤ 0xFFF ∧
    ¬ (0xF02#12 : Addr).toNat + ((State.reset.setReg 0x0#4 0xFE#8).reg 0x0#4).toNat ≤ 0xFFF := by
  decide

/-- No row; the last byte of memory; fifteen rows from the first. -/
theorem witness_DrawXorsTheSprite :
    (0x0#4 : Nibble) = 0#4 ∧
    (let s := { State.reset with i := 0xFFF#12 }
     0x050 ≤ s.i.toNat ∧ s.i.toNat + (0x1#4 : Nibble).toNat ≤ 0x1000) ∧
    (let s := { State.reset with i := 0x050#12 }
     0x050 ≤ s.i.toNat ∧ s.i.toNat + (0xF#4 : Nibble).toNat ≤ 0x1000) := by decide

/-- A blank display, and a sprite of which the first row is zero and the second is not. -/
theorem witness_DrawingTwiceRestoresTheDisplay :
    (let s := poke { State.reset with i := 0x300#12 } 0x301 0x01#8
     (∀ x y, s.fb.pixel x y = false) ∧
      0x050 ≤ s.i.toNat ∧ s.i.toNat + (0x2#4 : Nibble).toNat ≤ 0x1000 ∧
      s.mem.read s.i.toNat = 0x00#8 ∧ s.mem.read (s.i.toNat + 1) ≠ 0x00#8) :=
  ⟨fun x y => by simp [poke, Framebuffer.pixel, State.reset, blankDisplay], by decide⟩

theorem witness_KeyWaitStoresTheLatch : { State.reset with keys := 0x0100#16 }.keys ≠ 0x0000#16 := by
  decide

theorem witness_KeyWaitWithNoKeyLeavesTheState :
    (let s := startAt 0xFFC#12 0xF30A#16
     s.keys = 0x0000#16 ∧ 0x050 ≤ s.pc.toNat ∧ s.pc.toNat ≤ 0xFFD ∧
      decodeWord (s.mem.read s.pc.toNat ++ s.mem.read (s.pc.toNat + 1)) = .ok (.ldVxK 0x3#4)) := by
  decide

theorem witness_GlyphAddressOfADigit :
    ((State.reset.setReg 0x1#4 0x0F#8).reg 0x1#4).toNat ≤ 15 ∧
      (State.reset.reg 0x1#4).toNat ≤ 15 := by
  decide

/-- The first and the last place three digits fit. -/
theorem witness_BcdStoresThreeDigits :
    (let s := { State.reset with i := 0x050#12 }; 0x050 ≤ s.i.toNat ∧ s.i.toNat + 2 ≤ 0xFFF) ∧
    (let s := { State.reset with i := 0xFFD#12 }; 0x050 ≤ s.i.toNat ∧
      s.i.toNat + 2 ≤ 0xFFF) := by decide

/-- One register at the last address, sixteen at the last place they fit: of the statements on `FX55`,
`FX65` and the two together. -/
theorem witness_transfers :
    (let s := { State.reset with i := 0xFFF#12 }
     0x050 ≤ s.i.toNat ∧ s.i.toNat + (0x0#4 : Reg).toNat ≤ 0xFFF) ∧
    (let s := { State.reset with i := 0xFF0#12 }
     0x050 ≤ s.i.toNat ∧ s.i.toNat + (0xF#4 : Reg).toNat ≤ 0xFFF) ∧
    (let s := { State.reset with i := 0x050#12 }
     0x050 ≤ s.i.toNat ∧ s.i.toNat + (0x1#4 : Reg).toNat ≤ 0xFFF ∧
       (0x0#4 : Reg).toNat ≤ (0x1#4 : Reg).toNat ∧
      (0x1#4 : Reg).toNat < (0x2#4 : Reg).toNat) := by decide

/-- Every clause at a boundary. -/
theorem witness_DataAccessesFaultOutsideMemory :
    (let s := { State.reset with i := 0x04F#12 }; s.i.toNat ≤ 0x04F ∧ (0x1#4 : Nibble) ≠ 0#4) ∧
    (let s := { State.reset with i := 0xFFF#12 }
     0x050 ≤ s.i.toNat ∧ 0x1000 < s.i.toNat + (0x2#4 : Nibble).toNat ∧
      0xFFF < s.i.toNat + (0x1#4 : Reg).toNat) ∧
    (let s := { State.reset with i := 0xFFE#12 }; 0x050 ≤ s.i.toNat ∧
      0xFFF < s.i.toNat + 2) := by decide

/-- A store that completes, and a fetch of its bytes at the last address that can be fetched: two registers
inside an `FX55` (`JP 0x20A`); the last digit of an `FX33` before the byte 0xE0 that was there (`CLS`); two
digits, which are no instruction; the slot a call wrote, as code. -/
theorem witness_StoredCodeIsFetchedNext :
    (let s := ({ State.reset with i := 0xFFC#12 }.setReg 0x1#4 0x12#8).setReg 0x2#4 0x0A#8
     faultOf (.ldMemVx 0x3#4) s = none ∧
      decodeWord (byteAfter (.ldMemVx 0x3#4) s 0xFFD ++ byteAfter (.ldMemVx 0x3#4) s 0xFFE) =
        .ok (.jpNnn 0x20A#12)) ∧
    (let s := poke ({ State.reset with i := 0xFFB#12 }.setReg 0x0#4 0x64#8) 0xFFE 0xE0#8
     faultOf (.ldBVx 0x0#4) s = none ∧
      decodeWord (byteAfter (.ldBVx 0x0#4) s 0xFFD ++ byteAfter (.ldBVx 0x0#4) s 0xFFE) = .ok .cls ∧
      decodeWord (byteAfter (.ldBVx 0x0#4) s 0xFFB ++ byteAfter (.ldBVx 0x0#4) s 0xFFC) =
        .error (.family0 0x100#12)) ∧
    (let s := { State.reset with pc := 0x202#12 }
     faultOf (.callNnn 0x1FE#12) s = none ∧
      decodeWord (byteAfter (.callNnn 0x1FE#12) s 0x1FE ++ byteAfter (.callNnn 0x1FE#12) s 0x1FF) =
        .error (.family0 0x202#12)) := by decide

/-- An instruction that completes and leaves a register alone. -/
theorem witness_RegistersChangeOnlyWhereNamed :
    (∃ t, exec (.addVxVy 0x1#4 0x2#4) State.reset = .next t) ∧
    writesReg (.addVxVy 0x1#4 0x2#4) 0x3#4 = false ∧ writesReg (.ldVxMem 0x1#4) 0x2#4 = false :=
  ⟨⟨_, rfl⟩, by decide, by decide⟩

/-- A store of two bytes, and the addresses on either side of them. -/
theorem witness_MemoryChangesOnlyWhereStored :
    (∃ t, exec (.ldMemVx 0x1#4) { State.reset with i := 0x300#12 } = .next t) ∧
    storesAt (.ldMemVx 0x1#4) { State.reset with i := 0x300#12 } = some (0x300, 2) ∧
    storesAt (.addVxVy 0x1#4 0x2#4) State.reset = none :=
  ⟨⟨_, rfl⟩, by decide, by decide⟩

/-- Each clause: an instruction that leaves `pc`, and one that changes each of the others. -/
theorem witness_SpecialStateChangesOnlyWhereNamed :
    writesPc (.ldINnn 0x300#12) = false ∧
    (∃ t, exec (.ldINnn 0x300#12) State.reset = .next t ∧ t.i ≠ State.reset.i) ∧
    (∃ t, exec (.callNnn 0x300#12) State.reset = .next t ∧ t.sp ≠ State.reset.sp) ∧
    (∃ t, exec (.ldDtVx 0x1#4) (State.reset.setReg 0x1#4 1#8) = .next t ∧ t.dt ≠ State.reset.dt) ∧
    (∃ t, exec (.ldStVx 0x1#4) (State.reset.setReg 0x1#4 1#8) = .next t ∧ t.st ≠ State.reset.st) ∧
    (∃ t, exec .cls (light State.reset 0 0) = .next t ∧
      t.fb.pixel 0 0 ≠ (light State.reset 0 0).fb.pixel 0 0) ∧
    (∃ t, exec (.rndVxNn 0x1#4 0x0F#8) State.reset = .next t ∧ t.draws ≠ State.reset.draws) :=
  ⟨by decide, ⟨_, rfl, by decide⟩, ⟨_, rfl, by decide⟩, ⟨_, rfl, by decide⟩, ⟨_, rfl, by decide⟩,
    ⟨_, rfl, by decide⟩, ⟨_, rfl, by decide⟩⟩

theorem witness_OnlyKeyInstructionsReadTheKeys : readsKeys (.drwVxVyN 0x0#4 0x1#4 0x5#4) = false := by
  decide

/-- A step that completes, a step that faults, and an operation that is no reset. -/
theorem witness_HostProtocol : (∃ t, step State.reset = .next t) ∧
    step { State.reset with pc := 0xFFE#12 } = .fault (.addressOverflow 0x1000) ∧
    HostOp.load [0x12#8] ≠ .reset := ⟨⟨_, rfl⟩, rfl, by decide⟩

/-- A byte of each kind. -/
theorem witness_DumpShowsTheByteImage :
    dumpByte (poke State.reset 0xFFF 0x42#8) 0xFFF = some 0x42#8 ∧
      dumpByte State.reset 0x050 = some 0xF0#8 ∧
    dumpByte (State.reset.setReg VF 0x01#8) 0x01F = some 0x01#8 ∧ dumpByte State.reset 0x002 = none ∧
    dumpByte State.reset 0x006 = none ∧ dumpByte State.reset 0x00F = none ∧
    dumpByte State.reset 0x020 = none ∧ dumpByte State.reset 0x04F = none ∧
    dumpByte State.reset 0x1000 = none := by decide

theorem witness_PlacedWordIsTheOneRun : decodeTableWord 16 0x1234 = some (.jpNnn 0x234#12) ∧
    0x050 ≤ State.reset.pc.toNat ∧ State.reset.pc.toNat ≤ 0xFFD := by decide

end Sys2Proof.Tests
end

section
/-! PROOFS. The step where an instruction can execute (40_cycle.md R121, R122, R124). -/

open Sys2Proof.Claims

namespace Sys2Proof.Machine

/-- R121, R70: where an instruction can execute, the fetch gives the word at `pc` and advances `pc`. -/
theorem State.fetch_ok (s : State) (lo : 0x050 ≤ s.pc.toNat) (hi : s.pc.toNat ≤ 0xFFD) :
    s.fetch = .ok (wordAtPc s, { s with pc := s.pc + 2#12 }) := by
  obtain ⟨-, -, hfetch⟩ | ⟨f, hfault, -⟩ := State.fetch_cases s
  · exact hfetch
  · have hnone : fetchFaultOf s = none := by
      unfold fetchFaultOf
      rw [if_neg (by omega), if_neg (by omega), if_neg (by omega)]
    rw [hnone] at hfault
    contradiction

/-- R122: the instruction of the fetched word executes from the fetched state. -/
theorem step_of_decode_ok {s s' : State} {w : Word} {i : Instr} (hfetch : s.fetch = .ok (w, s'))
    (hdec : decodeWord w = .ok i) : step s = exec i s' := by
  simp only [step, hfetch, hdec]

/-- R124: a fetched word that is no instruction ends the step in the fetched state. -/
theorem step_of_decode_error {s s' : State} {w : Word} {r : Reject} (hfetch : s.fetch = .ok (w, s'))
    (hdec : decodeWord w = .error r) : step s = .next s' := by
  simp only [step, hfetch, hdec, unsupported]

/-- R124: a fetched word that is no instruction is reported. -/
theorem stepStatus_of_decode_error {s s' : State} {w : Word} {r : Reject}
    (hfetch : s.fetch = .ok (w, s')) (hdec : decodeWord w = .error r) :
    stepStatus s = some .unsupportedOpcode := by
  simp only [stepStatus, hfetch, hdec]

/-- Settles O12: the fetch succeeds, and the step executes what the fetched word decodes to. -/
theorem stepRunsTheDecodedInstruction : Obligations.StepRunsTheDecodedInstruction := by
  intro s i lo hi hdec
  exact step_of_decode_ok (s.fetch_ok lo hi) hdec

/-- Settles O13: the fetch succeeds, and the step ends in the fetched state with the report of R124. -/
theorem unsupportedWordAdvancesThePcOnly : Obligations.UnsupportedWordAdvancesThePcOnly := by
  intro s r lo hi hdec
  have hfetch := s.fetch_ok lo hi
  exact ⟨step_of_decode_error hfetch hdec, stepStatus_of_decode_error hfetch hdec⟩

end Sys2Proof.Machine
end

section
/-! PROOFS. Clear and jump (41_op0_op2_flow.md R141, R143). -/

namespace Sys2Proof.Machine

/-- R141: a clear completes in every state, and only the display is written. -/
theorem exec_cls (s : State) : exec .cls s = .next { s with fb := blankDisplay } := rfl

/-- R143: a jump completes in every state, and only `pc` is written: every target fits in `pc`. -/
theorem exec_jpNnn (nnn : Addr) (s : State) : exec (.jpNnn nnn) s = .next { s with pc := nnn } := by
  change finish (s.setPC nnn.toNat) = _
  rw [State.setPC_addr]
  rfl

/-- R123: where no instruction can execute, the fetch faults and the step with it. -/
theorem step_fault_of_not_fetchable {s : State} (h : ¬ fetchable s.pc) : ∃ f, step s = .fault f := by
  obtain ⟨-, hfetchable, -⟩ | ⟨f, -, hfetch⟩ := s.fetch_cases
  · exact absurd hfetchable h
  · exact ⟨f, by simp only [step, hfetch, raise]⟩

/-- Settles O18: the display a clear leaves is the blank one, which reads off everywhere. -/
theorem clearTurnsEveryPixelOff : Obligations.ClearTurnsEveryPixelOff := by
  refine ⟨rfl, fun s => ⟨_, exec_cls s, rfl, ?_⟩⟩
  exact Framebuffer.pixel_blank

/-- Settles O19: a jump only writes `pc`, so one to a place where nothing can execute leaves the fault to
the next fetch, and one to itself undoes the fetch advance. -/
theorem jumpGoesToItsTarget : Obligations.JumpGoesToItsTarget := by
  intro nnn s
  refine ⟨rfl, exec_jpNnn nnn s, fun hbad => ?_, fun lo hi hself => ?_⟩
  · have hnot : ¬ fetchable nnn := by
      rintro ⟨hlo, hhi⟩
      omega
    exact step_fault_of_not_fetchable hnot
  · calc step s = exec (.jpNnn s.pc) { s with pc := s.pc + 2#12 } :=
          stepRunsTheDecodedInstruction s _ lo hi hself
      _ = .next s := exec_jpNnn s.pc _

end Sys2Proof.Machine
end

section
/-! PROOFS. Load of an immediate (42_op3_op7_skip_load.md R154). -/

namespace Sys2Proof.Machine

/-- R154: a load of an immediate completes in every state and is one register write, `VF` like any
other. -/
theorem exec_ldVxNn (x : Reg) (nn : Byte) (s : State) :
    exec (.ldVxNn x nn) s = .next (s.setReg x nn) := rfl

/-- R96: the word of a load of an immediate has format `6XNN`. -/
theorem encode_ldVxNn (x : Reg) (nn : Byte) : encode (.ldVxNn x nn) = wordXnn 0x6#4 x nn := rfl

/-- Settles O29: the word is its format written out, and a register write sets one entry of `v`. -/
theorem loadImmediateWritesTheRegister : Obligations.LoadImmediateWritesTheRegister := by
  intro x nn s
  constructor
  · rw [encode_ldVxNn, wordXnn]
  · rw [exec_ldVxNn, State.setReg]

end Sys2Proof.Machine
end

section
/-! PROOFS. The index register: load and add (44_op9_opC_misc.md R182, 47_opF_timers_memory.md R210). -/

namespace Sys2Proof.Machine

/-- R96: the word of an index load has format `ANNN`. -/
theorem encode_ldINnn (nnn : Addr) : encode (.ldINnn nnn) = wordNnn 0xA#4 nnn := rfl

/-- R96: the word of an index add has format `FX1E`. -/
theorem encode_addIVx (x : Reg) : encode (.addIVx x) = wordXnn 0xF#4 x 0x1E#8 := rfl

/-- R182: an index load completes in every state, and only `I` is written. -/
theorem exec_ldINnn (nnn : Addr) (s : State) : exec (.ldINnn nnn) s = .next { s with i := nnn } := rfl

/-- R210: an index add completes in every state, and only `I` is written: no flag. -/
theorem exec_addIVx (x : Reg) (s : State) :
    exec (.addIVx x) s = .next { s with i := s.i + (s.reg x).setWidth 12 } := rfl

/-- R210: a byte added to an address is the sum of the two numbers modulo 4096. -/
theorem addr_add_byte (a : Addr) (b : Byte) :
    a + b.setWidth 12 = BitVec.ofNat 12 ((a.toNat + b.toNat) % 4096) := by
  have hwiden : (b.setWidth 12).toNat = b.toNat := BitVec.toNat_setWidth_of_le (by decide)
  apply BitVec.eq_of_toNat_eq
  rw [BitVec.toNat_add, hwiden, BitVec.toNat_ofNat, Nat.mod_mod]

/-- Settles O35: each word is its format written out, each meaning writes `I` only, and the 12-bit sum
is the wrapped one. -/
theorem indexLoadsAndAddsWrap : Obligations.IndexLoadsAndAddsWrap := by
  intro nnn x s
  refine ⟨?_, ?_, exec_ldINnn nnn s, ?_⟩
  · rw [encode_ldINnn, wordNnn]
  · rw [encode_addIVx, wordXnn]
  · rw [exec_addIVx, addr_add_byte]

end Sys2Proof.Machine
end

section
/-! PROOFS. Toggling one pixel of the display (45_opD_draw.md R192). -/

namespace Sys2Proof.Machine

/-- R192: a pixel depends on its coordinates modulo the size only. -/
theorem Framebuffer.pixel_congr (fb : Framebuffer) {x y x' y' : Nat} (hx : x % 64 = x' % 64)
    (hy : y % 32 = y' % 32) : fb.pixel x y = fb.pixel x' y' := by
  simp only [Framebuffer.pixel, hx, hy]

/-- R192: a toggle returns the addressed pixel as it was. -/
theorem togglePixel_fst (fb : Framebuffer) (x y : Nat) : (togglePixel fb x y).1 = fb.pixel x y := rfl

/-- R192: a toggle XORs the display with the one addressed pixel. -/
theorem pixel_togglePixel (fb : Framebuffer) (x y x' y' : Nat) :
    (togglePixel fb x y).2.pixel x' y' =
      (fb.pixel x' y' ^^ decide (x % 64 = x' % 64 ∧ y % 32 = y' % 32)) := by
  rw [togglePixel, Framebuffer.pixel_setPixel]
  by_cases hsame : x % 64 = x' % 64 ∧ y % 32 = y' % 32
  · rw [if_pos hsame, fb.pixel_congr hsame.1 hsame.2, decide_eq_true hsame, Bool.xor_true]
  · rw [if_neg hsame, decide_eq_false hsame, Bool.xor_false]

/-- Settles O38: the returned pixel is read at wrapped coordinates, and the flip is one pixel's XOR. -/
theorem toggleFlipsOnePixel : Obligations.ToggleFlipsOnePixel := by
  intro fb x y x' y'
  constructor
  · rw [togglePixel_fst]
    exact fb.pixel_congr (Nat.mod_mod x 64).symm (Nat.mod_mod y 32).symm
  · exact pixel_togglePixel fb x y x' y'

end Sys2Proof.Machine
end

section
/-! PROOFS. The timers: read and written by a register (47_opF_timers_memory.md R206, R208, R209). -/

namespace Sys2Proof.Machine

/-- R96: the word of a delay timer read has format `FX07`. -/
theorem encode_ldVxDt (x : Reg) : encode (.ldVxDt x) = wordXnn 0xF#4 x 0x07#8 := rfl

/-- R96: the word of a delay timer write has format `FX15`. -/
theorem encode_ldDtVx (x : Reg) : encode (.ldDtVx x) = wordXnn 0xF#4 x 0x15#8 := rfl

/-- R96: the word of a sound timer write has format `FX18`. -/
theorem encode_ldStVx (x : Reg) : encode (.ldStVx x) = wordXnn 0xF#4 x 0x18#8 := rfl

/-- R206: a delay timer read completes in every state, and only `VX` is written. -/
theorem exec_ldVxDt (x : Reg) (s : State) : exec (.ldVxDt x) s = .next (s.setReg x s.dt) := rfl

/-- R208: a delay timer write completes in every state, and only `DT` is written. -/
theorem exec_ldDtVx (x : Reg) (s : State) : exec (.ldDtVx x) s = .next { s with dt := s.reg x } := rfl

/-- R209: a sound timer write completes in every state, and only `ST` is written. -/
theorem exec_ldStVx (x : Reg) (s : State) : exec (.ldStVx x) s = .next { s with st := s.reg x } := rfl

/-- Settles O41: each word is its format written out, a register write sets one entry of `v`, and each
timer write sets one field. -/
theorem timerInstructionsMoveOneByte : Obligations.TimerInstructionsMoveOneByte := by
  intro x s
  refine ⟨?_, ?_, ?_, ?_, exec_ldDtVx x s, exec_ldStVx x s⟩
  · rw [encode_ldVxDt, wordXnn]
  · rw [encode_ldDtVx, wordXnn]
  · rw [encode_ldStVx, wordXnn]
  · rw [exec_ldVxDt, State.setReg]

end Sys2Proof.Machine
end

section
/-! PROOFS. One law for all instructions: where it has a raise point it raises that fault, and elsewhere it
ends in one state, written out field by field. Every later proof about an instruction goes through it. -/

namespace Sys2Proof.Machine

/-- How an instruction ends: in the fault of its raise point where it has one, else in a state. -/
def ending : Option Fault → State → Result
  | some f, _ => .fault f
  | none, t => .next t

@[simp] theorem ending_some (f : Fault) (t : State) : ending (some f) t = .fault f := rfl
@[simp] theorem ending_none (t : State) : ending none t = .next t := rfl

theorem ending_eq_next {o : Option Fault} {t u : State} : ending o t = .next u ↔ o = none ∧ t = u := by
  cases o <;> simp

theorem ending_eq_fault {o : Option Fault} {t : State} {f : Fault} :
    ending o t = .fault f ↔ o = some f := by
  cases o <;> simp

/-- The `n` bytes from `I` up. -/
def State.bytesAtI (s : State) (n : Nat) : List Byte := (List.range' s.i.toNat n).map s.mem.read

@[simp] theorem State.length_bytesAtI (s : State) (n : Nat) : (s.bytesAtI n).length = n := by
  simp [State.bytesAtI]

@[simp] theorem State.getElem_bytesAtI (s : State) (n k : Nat) (h : k < (s.bytesAtI n).length) :
    (s.bytesAtI n)[k] = s.mem.read (s.i.toNat + k) := by
  simp [State.bytesAtI]

/-- The canvas after an `n`-row sprite was drawn at `(VX, VY)` (R194). -/
def drawnCanvas (x y : Reg) (n : Nat) (s : State) : Canvas :=
  drawRows ((s.reg x).toNat % 64) ((s.reg y).toNat % 32) (s.bytesAtI n) (s.fb, false)

/-- The state with `pc` 2 further if a skip is taken. -/
def State.skipped (s : State) (taken : Bool) : State :=
  { s with pc := if taken then s.pc + 2#12 else s.pc }

/-- The state an instruction ends in where it raises no fault. -/
def effect : Instr → State → State
  | .cls, s => { s with fb := blankDisplay }
  | .ret, s => { s with sp := s.sp - 2#8, pc := BitVec.ofNat 12 (poppedValue s) }
  | .jpNnn nnn, s => { s with pc := nnn }
  | .callNnn nnn, s => { s.stackWrite16 s.sp.toNat s.pc with sp := s.sp + 2#8, pc := nnn }
  | .seVxNn x nn, s => s.skipped (s.reg x == nn)
  | .sneVxNn x nn, s => s.skipped (s.reg x != nn)
  | .seVxVy x y _, s => s.skipped (s.reg x == s.reg y)
  | .sneVxVy x y _, s => s.skipped (s.reg x != s.reg y)
  | .skpVx x, s => s.skipped (s.keys.getLsbD (s.reg x).toNat)
  | .sknpVx x, s => s.skipped (!s.keys.getLsbD (s.reg x).toNat)
  | .ldVxNn x nn, s => s.setReg x nn
  | .addVxNn x nn, s => s.setReg x (s.reg x + nn)
  | .ldVxVy x y, s => s.setReg x (s.reg y)
  | .orVxVy x y, s => s.setReg x (s.reg x ||| s.reg y)
  | .andVxVy x y, s => s.setReg x (s.reg x &&& s.reg y)
  | .xorVxVy x y, s => s.setReg x (s.reg x ^^^ s.reg y)
  | .addVxVy x y, s => s.setRegFlag x (s.reg x + s.reg y) (carryOut (s.reg x) (s.reg y))
  | .subVxVy x y, s => s.setRegFlag x (s.reg x - s.reg y) (borrowOut (s.reg x) (s.reg y))
  | .shrVx x _, s => s.setRegFlag x (s.reg x >>> 1) (shiftedOutRight (s.reg x))
  | .subnVxVy x y, s => s.setRegFlag x (s.reg y - s.reg x) (borrowOut (s.reg y) (s.reg x))
  | .shlVx x _, s => s.setRegFlag x (s.reg x <<< 1) (shiftedOutLeft (s.reg x))
  | .ldINnn nnn, s => { s with i := nnn }
  | .jpV0Nnn nnn, s => { s with pc := BitVec.ofNat 12 (nnn.toNat + (s.reg 0#4).toNat) }
  | .rndVxNn x nn, s => { s with draws := s.draws + 1 }.setReg x (Config.freeByte s.draws &&& nn)
  | .drwVxVyN x y n, s =>
    { s with fb := (drawnCanvas x y n.toNat s).1 }.setReg VF (flagByte (drawnCanvas x y n.toNat s).2)
  | .ldVxDt x, s => s.setReg x s.dt
  | .ldVxK x, s =>
    { s with
      pc := if s.keys = 0#16 then BitVec.ofNat 12 (s.pc.toNat - 2) else s.pc
      v := if s.keys = 0#16 then s.v else (s.setReg x (s.keys.setWidth 8)).v }
  | .ldDtVx x, s => { s with dt := s.reg x }
  | .ldStVx x, s => { s with st := s.reg x }
  | .addIVx x, s => { s with i := s.i + (s.reg x).setWidth 12 }
  | .ldFVx x, s => { s with i := glyphAddr (s.reg x).toNat }
  | .ldBVx x, s => { s with mem := s.mem.writes s.i.toNat (bcdDigits (s.reg x)) }
  | .ldMemVx x, s => { s with mem := s.mem.writes s.i.toNat (s.regsUpTo (x.toNat + 1)) }
  | .ldVxMem x, s => { s with v := (s.setRegsFrom 0 (s.bytesAtI (x.toNat + 1))).v }

/-! The shared operations in the same form. -/

/-- `SetPC(v)` as the end of an instruction. -/
theorem State.finish_setPC (s : State) (v : Nat) :
    finish (s.setPC v) = ending (overPc v) { s with pc := BitVec.ofNat 12 v } := by
  unfold overPc
  split
  · rw [s.setPC_over ‹_›]; rfl
  · rw [s.setPC_ok (by omega)]; rfl

theorem State.skipIf_eq (s : State) (c : Bool) : s.skipIf c = ending (skipFault c s) (s.skipped c) := by
  obtain ⟨hf, hs⟩ | ⟨f, hf, hs⟩ := s.skipIf_cases c
  · rw [hf, hs]; rfl
  · rw [hf, hs]; rfl

/-! The instructions that read an operand's range, the stack or memory, in the same form. -/

/-- R201: the operand's range comes before the skip (R229). -/
theorem exec_skpVx_eq (x : Reg) (s : State) :
    exec (.skpVx x) s = ending (faultOf (.skpVx x) s) (effect (.skpVx x) s) := by
  simp only [exec, faultOf, keyFault, execSkpVx]
  by_cases hbig : (s.reg x).toNat > 15
  · rw [s.keyDown_over hbig, if_pos hbig]; rfl
  · rw [s.keyDown_ok (by omega), if_neg hbig]; exact s.skipIf_eq _

/-- R202: the operand's range comes before the skip (R229). -/
theorem exec_sknpVx_eq (x : Reg) (s : State) :
    exec (.sknpVx x) s = ending (faultOf (.sknpVx x) s) (effect (.sknpVx x) s) := by
  simp only [exec, faultOf, keyFault, execSknpVx]
  by_cases hbig : (s.reg x).toNat > 15
  · rw [s.keyDown_over hbig, if_pos hbig]; rfl
  · rw [s.keyDown_ok (by omega), if_neg hbig]; exact s.skipIf_eq _

theorem exec_ret_eq (s : State) : exec .ret s = ending (faultOf .ret s) (effect .ret s) := by
  change execRet s = _
  rw [execRet_eq]
  simp only [faultOf, overPc]
  split
  · rfl
  · by_cases hfits : poppedValue s ≤ 0xFFF
    · rw [if_pos hfits, if_neg (by omega)]; rfl
    · rw [if_neg hfits, if_pos (by omega)]; rfl

theorem exec_callNnn_eq (nnn : Addr) (s : State) :
    exec (.callNnn nnn) s = ending (faultOf (.callNnn nnn) s) (effect (.callNnn nnn) s) := by
  change execCallNnn nnn s = _
  rw [execCallNnn_eq]
  simp only [faultOf]
  split <;> rfl

theorem exec_ldVxK_eq (x : Reg) (s : State) : exec (.ldVxK x) s = .next (effect (.ldVxK x) s) := by
  change execLdVxK x s = _
  simp only [execLdVxK, State.noKeyDown, beq_iff_eq, effect]
  split
  · have hfits : s.pc.toNat - 2 ≤ 0xFFF := by have := s.pc.isLt; omega
    rw [s.setPC_ok hfits, finish]
  · rfl

theorem exec_ldFVx_eq (x : Reg) (s : State) :
    exec (.ldFVx x) s = ending (faultOf (.ldFVx x) s) (effect (.ldFVx x) s) := by
  change execLdFVx x s = _
  simp only [execLdFVx, faultOf]
  split
  · rename_i hbig; rw [if_pos (by exact hbig)]; rfl
  · rename_i hsmall; rw [if_neg (by exact hsmall)]; rfl

theorem exec_drwVxVyN_eq (x y : Reg) (n : Nibble) (s : State) :
    exec (.drwVxVyN x y n) s = ending (faultOf (.drwVxVyN x y n) s) (effect (.drwVxVyN x y n) s) := by
  change execDrwVxVyN x y n s = ending (dataFault n.toNat s) _
  obtain ⟨hf, hr⟩ | ⟨f, hf, hr⟩ := s.memReads_cases n.toNat <;> rw [execDrwVxVyN, hr, hf] <;> rfl

theorem exec_ldBVx_eq (x : Reg) (s : State) :
    exec (.ldBVx x) s = ending (faultOf (.ldBVx x) s) (effect (.ldBVx x) s) := by
  change execLdBVx x s = ending (dataFault (bcdDigits (s.reg x)).length s) _
  obtain ⟨hf, hw⟩ | ⟨f, hf, hw⟩ := s.memWrites_cases (bcdDigits (s.reg x)) <;>
    rw [execLdBVx, hw, hf] <;> rfl

theorem exec_ldMemVx_eq (x : Reg) (s : State) :
    exec (.ldMemVx x) s = ending (faultOf (.ldMemVx x) s) (effect (.ldMemVx x) s) := by
  have hlen : (s.regsUpTo (x.toNat + 1)).length = x.toNat + 1 :=
    s.length_regsUpTo (by have := x.isLt; omega)
  change execLdMemVx x s = ending (dataFault (x.toNat + 1) s) _
  rw [← hlen]
  obtain ⟨hf, hw⟩ | ⟨f, hf, hw⟩ := s.memWrites_cases (s.regsUpTo (x.toNat + 1)) <;>
    rw [execLdMemVx, hw, hf] <;> rfl

theorem exec_ldVxMem_eq (x : Reg) (s : State) :
    exec (.ldVxMem x) s = ending (faultOf (.ldVxMem x) s) (effect (.ldVxMem x) s) := by
  change execLdVxMem x s = ending (dataFault (x.toNat + 1) s) _
  obtain ⟨hf, hr⟩ | ⟨f, hf, hr⟩ := s.memReads_cases (x.toNat + 1)
  · obtain ⟨v, hv⟩ := s.setRegsFrom_frame 0 (s.bytesAtI (x.toNat + 1))
    rw [execLdVxMem, hr, hf, ending_none, effect, hv]
    exact congrArg Host.Outcome.next hv
  · rw [execLdVxMem, hr, hf]; rfl

/-- The law of every instruction. -/
theorem exec_eq (i : Instr) (s : State) : exec i s = ending (faultOf i s) (effect i s) := by
  cases i with
  | ret => exact exec_ret_eq s
  | jpNnn nnn => exact exec_jpNnn nnn s
  | callNnn nnn => exact exec_callNnn_eq nnn s
  | seVxNn x nn => exact s.skipIf_eq _
  | sneVxNn x nn => exact s.skipIf_eq _
  | seVxVy x y n => exact s.skipIf_eq _
  | sneVxVy x y n => exact s.skipIf_eq _
  | jpV0Nnn nnn => exact s.finish_setPC _
  | drwVxVyN x y n => exact exec_drwVxVyN_eq x y n s
  | skpVx x => exact exec_skpVx_eq x s
  | sknpVx x => exact exec_sknpVx_eq x s
  | ldVxK x => exact exec_ldVxK_eq x s
  | ldFVx x => exact exec_ldFVx_eq x s
  | ldBVx x => exact exec_ldBVx_eq x s
  | ldMemVx x => exact exec_ldMemVx_eq x s
  | ldVxMem x => exact exec_ldVxMem_eq x s
  | _ => rfl

/-- Where an instruction has no raise point it ends in its state. -/
theorem exec_of_no_fault {i : Instr} {s : State} (h : faultOf i s = none) :
    exec i s = .next (effect i s) := by
  rw [exec_eq, h]; rfl

/-- Where an instruction has a raise point it raises that fault. -/
theorem exec_of_fault {i : Instr} {s : State} {f : Fault} (h : faultOf i s = some f) :
    exec i s = .fault f := by
  rw [exec_eq, h]; rfl

/-- A next state is the one of the law, reached past no raise point. -/
theorem exec_eq_next {i : Instr} {s t : State} :
    exec i s = .next t ↔ faultOf i s = none ∧ effect i s = t := by
  rw [exec_eq, ending_eq_next]

theorem exec_eq_fault {i : Instr} {s : State} {f : Fault} :
    exec i s = .fault f ↔ faultOf i s = some f := by
  rw [exec_eq, ending_eq_fault]

/-- Settles O16: the law read at the two values of the raise point. -/
theorem instructionsFaultExactlyAtTheRaisePoints :
    Obligations.InstructionsFaultExactlyAtTheRaisePoints := by
  intro i s
  split
  · exact exec_of_fault ‹_›
  · exact ⟨_, exec_of_no_fault ‹_›⟩

end Sys2Proof.Machine
end

section
/-! PROOFS. What an instruction stores (20_memory.md R61, R72, R77): memory after an instruction is the
memory before it with the bytes of `storedBytes` written where `storesAt` says. -/

open Sys2Proof.Claims

namespace Sys2Proof.Machine

/-- The first address an instruction stores to, where it stores. -/
def storeStart (i : Instr) (s : State) : Nat := ((storesAt i s).getD (0, 0)).1

/-- The high byte of an address in a slot, as a number. -/
theorem slot_high_byte (a : Addr) : (a.setWidth 16).extractLsb' 8 8 = BitVec.ofNat 8 (a.toNat / 256) := by
  have hwide : (a.setWidth 16).toNat = a.toNat := BitVec.toNat_setWidth_of_le (by decide)
  apply BitVec.eq_of_toNat_eq
  rw [BitVec.extractLsb'_toNat, hwide, Nat.shiftRight_eq_div_pow, BitVec.toNat_ofNat]

/-- The low byte of an address in a slot, as a number. -/
theorem slot_low_byte (a : Addr) : (a.setWidth 16).extractLsb' 0 8 = BitVec.ofNat 8 (a.toNat % 256) := by
  have hwide : (a.setWidth 16).toNat = a.toNat := BitVec.toNat_setWidth_of_le (by decide)
  apply BitVec.eq_of_toNat_eq
  rw [BitVec.extractLsb'_toNat, hwide, Nat.shiftRight_zero, BitVec.toNat_ofNat, Nat.mod_mod]

/-- `V0` to `VX`, register by register. -/
theorem State.regsUpTo_eq_map (s : State) (x : Reg) :
    s.regsUpTo (x.toNat + 1) = (List.range (x.toNat + 1)).map fun k => s.reg (BitVec.ofNat 4 k) := by
  have hx : x.toNat + 1 ≤ 16 := x.isLt
  apply List.ext_getElem
  · rw [s.length_regsUpTo hx, List.length_map, List.length_range]
  · intro k hk _
    rw [s.length_regsUpTo hx] at hk
    simp [State.regsUpTo, State.reg, Nat.mod_eq_of_lt (show k < 16 by omega)]

/-- R61: memory changes by the bytes an instruction stores and by nothing else. -/
theorem effect_mem (i : Instr) (s : State) :
    (effect i s).mem = s.mem.writes (storeStart i s) (storedBytes i s) := by
  cases i with
  | callNnn nnn =>
    simp only [storedBytes, ← slot_high_byte, ← slot_low_byte]
    rfl
  | ldMemVx x =>
    simp only [storedBytes, ← State.regsUpTo_eq_map]
    rfl
  | _ => rfl

/-- As many bytes are stored as `storesAt` says. -/
theorem length_storedBytes {i : Instr} {s : State} {a n : Nat} (h : storesAt i s = some (a, n)) :
    (storedBytes i s).length = n := by
  cases i with
  | callNnn nnn => cases h; rfl
  | ldBVx x => cases h; rfl
  | ldMemVx x => cases h; simp [storedBytes]
  | _ => cases h

theorem storeStart_of_some {i : Instr} {s : State} {a n : Nat} (h : storesAt i s = some (a, n)) :
    storeStart i s = a := by
  rw [storeStart, h]; rfl

theorem storedBytes_of_none {i : Instr} {s : State} (h : storesAt i s = none) : storedBytes i s = [] := by
  cases i with
  | callNnn nnn => cases h
  | ldBVx x => cases h
  | ldMemVx x => cases h
  | _ => rfl

theorem faultOf_callNnn_eq_none {nnn : Addr} {s : State} :
    faultOf (.callNnn nnn) s = none ↔ s.sp.toNat ≤ 252 := by
  simp [faultOf]

/-- A byte outside what an instruction stores is as before. -/
theorem effect_mem_read_outside {i : Instr} {s : State} {a : Nat}
    (h : ∀ base n, storesAt i s = some (base, n) → a < base ∨ base + n ≤ a) :
    (effect i s).mem.read a = s.mem.read a := by
  rw [effect_mem]
  cases hst : storesAt i s with
  | none => rw [storedBytes_of_none hst]; rfl
  | some p =>
    obtain ⟨base, n⟩ := p
    apply Memory.read_writes_out
    rw [storeStart_of_some hst, length_storedBytes hst]
    exact h base n hst

/-- Where a store completes, its bytes lie in 0x050 to 0xFFF. -/
theorem store_in_memory {i : Instr} {s : State} {a n : Nat} (hfault : faultOf i s = none)
    (h : storesAt i s = some (a, n)) : Config.blockHi < a ∧ a + n ≤ Config.memSize := by
  have hdata : ∀ m, m ≠ 0 → dataFault m s = none →
      Config.blockHi < s.i.toNat ∧ s.i.toNat + m ≤ Config.memSize := by
    intro m hm hnone
    simp only [dataFault, if_neg hm] at hnone
    split_ifs at hnone
    simp only [Config.blockHi, Config.memSize]
    omega
  cases i with
  | callNnn nnn =>
    cases h
    have := faultOf_callNnn_eq_none.mp hfault
    simp only [Config.blockHi, Config.memSize, Params.stackSlot]
    omega
  | ldBVx x => cases h; exact hdata 3 (by decide) hfault
  | ldMemVx x => cases h; exact hdata _ (Nat.succ_ne_zero _) hfault
  | _ => cases h

/-- Memory after an instruction that completes, byte by byte. -/
theorem effect_mem_read {i : Instr} {s : State} (hfault : faultOf i s = none) (a : Nat) :
    (effect i s).mem.read a = byteAfter i s a := by
  unfold byteAfter
  cases hst : storesAt i s with
  | none => exact effect_mem_read_outside (by simp [hst])
  | some p =>
    obtain ⟨base, n⟩ := p
    obtain ⟨hlo, hhi⟩ := store_in_memory hfault hst
    obtain rfl := length_storedBytes hst
    rw [effect_mem, storeStart_of_some hst, Memory.read_writes _ _ _ _ hlo hhi]
    by_cases ha : base ≤ a ∧ a < base + (storedBytes i s).length
    · simp only [dif_pos ha, if_pos ha]
      exact (List.getD_eq_getElem _ _ _).symm
    · simp only [dif_neg ha, if_neg ha]

/-- The bytes of a call's slot: the following address, high byte first. -/
theorem call_mem_read {nnn : Addr} {s : State} (a : Nat) (hsp : s.sp.toNat ≤ 252) :
    (effect (.callNnn nnn) s).mem.read a =
      if a = 0x1FE - s.sp.toNat then BitVec.ofNat 8 (s.pc.toNat / 256)
      else if a = 0x1FF - s.sp.toNat then BitVec.ofNat 8 (s.pc.toNat % 256)
      else s.mem.read a := by
  rw [effect_mem_read (faultOf_callNnn_eq_none.mpr hsp)]
  simp only [byteAfter, storesAt, storedBytes, Params.stackSlot]
  by_cases hhigh : a = 0x1FE - s.sp.toNat
  · rw [if_pos (by omega), if_pos hhigh, hhigh, Nat.sub_self]; rfl
  · rw [if_neg hhigh]
    by_cases hlow : a = 0x1FF - s.sp.toNat
    · rw [if_pos (by omega), if_pos hlow, show a - (0x1FE - s.sp.toNat) = 1 by omega]; rfl
    · rw [if_neg (by omega), if_neg hlow]

/-- Settles O52: the law of memory, read outside the bytes stored. -/
theorem memoryChangesOnlyWhereStored : Obligations.MemoryChangesOnlyWhereStored := by
  intro i s t a hexec hout
  obtain ⟨-, rfl⟩ := exec_eq_next.mp hexec
  exact effect_mem_read_outside hout

end Sys2Proof.Machine
end

section
/-! PROOFS. Decode and encode are each other's inverse (30_encoding.md R96 to R98). -/

namespace Sys2Proof

/-- R99, D22: the low nibble is no ground for a rejection. -/
theorem decodeLowNibble_eq (n : Nibble) (i : Instr) : decodeLowNibble n i = .ok i := by
  simp [decodeLowNibble, Machine.Params.ignoreLowNibble59]

/-! The primary dispatch, one equation per value of `op` (R97). -/

section
variable {w : Word}

theorem decodeWord_of_op0 (h : opField w = 0x0#4) : decodeWord w = decodeFamily0 (nnnField w) := by
  rw [decodeWord, h]; rfl

theorem decodeWord_of_op1 (h : opField w = 0x1#4) : decodeWord w = .ok (.jpNnn (nnnField w)) := by
  rw [decodeWord, h]; rfl

theorem decodeWord_of_op2 (h : opField w = 0x2#4) : decodeWord w = .ok (.callNnn (nnnField w)) := by
  rw [decodeWord, h]; rfl

theorem decodeWord_of_op3 (h : opField w = 0x3#4) :
    decodeWord w = .ok (.seVxNn (xField w) (nnField w)) := by
  rw [decodeWord, h]; rfl

theorem decodeWord_of_op4 (h : opField w = 0x4#4) :
    decodeWord w = .ok (.sneVxNn (xField w) (nnField w)) := by
  rw [decodeWord, h]; rfl

theorem decodeWord_of_op5 (h : opField w = 0x5#4) :
    decodeWord w = .ok (.seVxVy (xField w) (yField w) (nField w)) := by
  rw [decodeWord, h]; exact decodeLowNibble_eq _ _

theorem decodeWord_of_op6 (h : opField w = 0x6#4) :
    decodeWord w = .ok (.ldVxNn (xField w) (nnField w)) := by
  rw [decodeWord, h]; rfl

theorem decodeWord_of_op7 (h : opField w = 0x7#4) :
    decodeWord w = .ok (.addVxNn (xField w) (nnField w)) := by
  rw [decodeWord, h]; rfl

theorem decodeWord_of_op8 (h : opField w = 0x8#4) :
    decodeWord w = decodeFamily8 (xField w) (yField w) (nField w) := by
  rw [decodeWord, h]; rfl

theorem decodeWord_of_op9 (h : opField w = 0x9#4) :
    decodeWord w = .ok (.sneVxVy (xField w) (yField w) (nField w)) := by
  rw [decodeWord, h]; exact decodeLowNibble_eq _ _

theorem decodeWord_of_opA (h : opField w = 0xA#4) : decodeWord w = .ok (.ldINnn (nnnField w)) := by
  rw [decodeWord, h]; rfl

theorem decodeWord_of_opB (h : opField w = 0xB#4) : decodeWord w = .ok (.jpV0Nnn (nnnField w)) := by
  rw [decodeWord, h]; rfl

theorem decodeWord_of_opC (h : opField w = 0xC#4) :
    decodeWord w = .ok (.rndVxNn (xField w) (nnField w)) := by
  rw [decodeWord, h]; rfl

theorem decodeWord_of_opD (h : opField w = 0xD#4) :
    decodeWord w = .ok (.drwVxVyN (xField w) (yField w) (nField w)) := by
  rw [decodeWord, h]; rfl

theorem decodeWord_of_opE (h : opField w = 0xE#4) :
    decodeWord w = decodeFamilyE (xField w) (nnField w) := by
  rw [decodeWord, h]; rfl

theorem decodeWord_of_opF (h : opField w = 0xF#4) :
    decodeWord w = decodeFamilyF (xField w) (nnField w) := by
  rw [decodeWord, h]; rfl

end

/-- Decoding the word of an instruction gives it back: its fields are those of its format. -/
theorem decodeWord_encode (i : Instr) : decodeWord (encode i) = .ok i := by
  cases i with
  | cls | ret => rfl
  | jpNnn nnn => simp [encode, decodeWord_of_op1]
  | callNnn nnn => simp [encode, decodeWord_of_op2]
  | seVxNn x nn => simp [encode, decodeWord_of_op3]
  | sneVxNn x nn => simp [encode, decodeWord_of_op4]
  | seVxVy x y n => simp [encode, decodeWord_of_op5]
  | ldVxNn x nn => simp [encode, decodeWord_of_op6]
  | addVxNn x nn => simp [encode, decodeWord_of_op7]
  | ldVxVy x y | orVxVy x y | andVxVy x y | xorVxVy x y | addVxVy x y | subVxVy x y | shrVx x y
  | subnVxVy x y | shlVx x y => simp [encode, decodeWord_of_op8, decodeFamily8]
  | sneVxVy x y n => simp [encode, decodeWord_of_op9]
  | ldINnn nnn => simp [encode, decodeWord_of_opA]
  | jpV0Nnn nnn => simp [encode, decodeWord_of_opB]
  | rndVxNn x nn => simp [encode, decodeWord_of_opC]
  | drwVxVyN x y n => simp [encode, decodeWord_of_opD]
  | skpVx x | sknpVx x => simp [encode, decodeWord_of_opE, decodeFamilyE]
  | ldVxDt x | ldVxK x | ldDtVx x | ldStVx x | addIVx x | ldFVx x | ldBVx x | ldMemVx x
  | ldVxMem x => simp [encode, decodeWord_of_opF, decodeFamilyF]

/-- Decoding the two bytes of a word decodes the word, whatever follows. -/
theorem decode_bytesOfWord (w : Word) (rest : List Byte) :
    decode (bytesOfWord w ++ rest) = (decodeWord w).map fun i => (i, rest) := by
  simp only [bytesOfWord, List.cons_append, List.nil_append, decode, wordOfBytes_bytes]

/-- Settles O7: the word gives the instruction back, and its two bytes give the word back. -/
theorem decodeOfEncodeIsTheInstruction : Obligations.DecodeOfEncodeIsTheInstruction := by
  intro i rest
  refine ⟨decodeWord_encode i, ?_⟩
  rw [encodeBytes, decode_bytesOfWord, decodeWord_encode]
  rfl

/-- The sixteen values of a field of 4 bits. -/
theorem nibble_cases (t : Nibble) :
    t = 0x0#4 ∨ t = 0x1#4 ∨ t = 0x2#4 ∨ t = 0x3#4 ∨ t = 0x4#4 ∨ t = 0x5#4 ∨ t = 0x6#4 ∨ t = 0x7#4 ∨
    t = 0x8#4 ∨ t = 0x9#4 ∨ t = 0xA#4 ∨ t = 0xB#4 ∨ t = 0xC#4 ∨ t = 0xD#4 ∨ t = 0xE#4 ∨ t = 0xF#4 := by
  revert t
  decide

/-! What each family's dispatch gives, read backwards. -/

theorem encode_of_decodeFamily0 {nnn : Addr} {i : Instr} (h : decodeFamily0 nnn = .ok i) :
    encode i = wordNnn 0x0#4 nnn := by
  unfold decodeFamily0 at h
  split_ifs at h <;> cases h <;> subst nnn <;> rfl

theorem encode_of_decodeFamily8 {x y : Reg} {n : Nibble} {i : Instr} (h : decodeFamily8 x y n = .ok i) :
    encode i = wordXys 0x8#4 x y n := by
  obtain rfl | rfl | rfl | rfl | rfl | rfl | rfl | rfl | rfl | rfl | rfl | rfl | rfl | rfl | rfl | rfl :=
    nibble_cases n <;> cases h <;> rfl

theorem encode_of_decodeFamilyE {x : Reg} {nn : Byte} {i : Instr} (h : decodeFamilyE x nn = .ok i) :
    encode i = wordXnn 0xE#4 x nn := by
  unfold decodeFamilyE at h
  split_ifs at h <;> cases h <;> subst nn <;> rfl

/-- R98: family F rejects every `NN` but the nine. -/
theorem decodeFamilyF_reject (x : Reg) {nn : Byte}
    (h : nn ∉ [0x07#8, 0x0A#8, 0x15#8, 0x18#8, 0x1E#8, 0x29#8, 0x33#8, 0x55#8, 0x65#8]) :
    decodeFamilyF x nn = .error (.familyF nn) := by
  simp only [List.mem_cons, List.not_mem_nil, or_false, not_or] at h
  obtain ⟨h07, h0A, h15, h18, h1E, h29, h33, h55, h65⟩ := h
  rw [decodeFamilyF, if_neg h07, if_neg h0A, if_neg h15, if_neg h18, if_neg h1E, if_neg h29, if_neg h33,
    if_neg h55, if_neg h65]

theorem encode_of_decodeFamilyF {x : Reg} {nn : Byte} {i : Instr} (h : decodeFamilyF x nn = .ok i) :
    encode i = wordXnn 0xF#4 x nn := by
  by_cases hnn : nn ∈ [0x07#8, 0x0A#8, 0x15#8, 0x18#8, 0x1E#8, 0x29#8, 0x33#8, 0x55#8, 0x65#8]
  · simp only [List.mem_cons, List.not_mem_nil, or_false] at hnn
    obtain rfl | rfl | rfl | rfl | rfl | rfl | rfl | rfl | rfl := hnn <;> cases h <;> rfl
  · rw [decodeFamilyF_reject x hnn] at h
    cases h

theorem encode_of_decodeWord {w : Word} {i : Instr} (h : decodeWord w = .ok i) : encode i = w := by
  have hnnn := wordNnn_fields w
  have hxnn := wordXnn_fields w
  have hxys := wordXys_fields w
  obtain h0 | h1 | h2 | h3 | h4 | h5 | h6 | h7 | h8 | h9 | hA | hB | hC | hD | hE | hF :=
    nibble_cases (opField w)
  · rw [decodeWord_of_op0 h0] at h; rw [encode_of_decodeFamily0 h, ← h0, hnnn]
  · rw [decodeWord_of_op1 h1] at h; cases h; rw [encode, ← h1, hnnn]
  · rw [decodeWord_of_op2 h2] at h; cases h; rw [encode, ← h2, hnnn]
  · rw [decodeWord_of_op3 h3] at h; cases h; rw [encode, ← h3, hxnn]
  · rw [decodeWord_of_op4 h4] at h; cases h; rw [encode, ← h4, hxnn]
  · rw [decodeWord_of_op5 h5] at h; cases h; rw [encode, ← h5, hxys]
  · rw [decodeWord_of_op6 h6] at h; cases h; rw [encode, ← h6, hxnn]
  · rw [decodeWord_of_op7 h7] at h; cases h; rw [encode, ← h7, hxnn]
  · rw [decodeWord_of_op8 h8] at h; rw [encode_of_decodeFamily8 h, ← h8, hxys]
  · rw [decodeWord_of_op9 h9] at h; cases h; rw [encode, ← h9, hxys]
  · rw [decodeWord_of_opA hA] at h; cases h; rw [encode, ← hA, hnnn]
  · rw [decodeWord_of_opB hB] at h; cases h; rw [encode, ← hB, hnnn]
  · rw [decodeWord_of_opC hC] at h; cases h; rw [encode, ← hC, hxnn]
  · rw [decodeWord_of_opD hD] at h; cases h; rw [encode, ← hD, hxys]
  · rw [decodeWord_of_opE hE] at h; rw [encode_of_decodeFamilyE h, ← hE, hxnn]
  · rw [decodeWord_of_opF hF] at h; rw [encode_of_decodeFamilyF h, ← hF, hxnn]

/-- The word of every instruction lies in its row of the table. -/
theorem encode_in_row (i : Instr) : encode i &&& i.mask = i.matchBits :=
  open Laws.TableRow in
  Instr.rec (motive := Statement) cls ret jpNnn callNnn seVxNn sneVxNn seVxVy ldVxNn addVxNn ldVxVy
    orVxVy andVxVy xorVxVy addVxVy subVxVy shrVx subnVxVy shlVx sneVxVy ldINnn jpV0Nnn rndVxNn drwVxVyN
    skpVx sknpVx ldVxDt ldVxK ldDtVx ldStVx addIVx ldFVx ldBVx ldMemVx ldVxMem i

/-- Settles O8: the fields a word is decoded to are those it is built from, and every instruction's word
lies in its row. -/
theorem encodeOfDecodeIsTheWord : Obligations.EncodeOfDecodeIsTheWord := by
  intro w i h
  obtain rfl := encode_of_decodeWord h
  exact ⟨rfl, encode_in_row i⟩

/-! The words each family rejects (R98). -/

theorem decodeFamily0_error {nnn : Addr} :
    (∃ r, decodeFamily0 nnn = .error r) ↔ nnn ≠ 0x0E0#12 ∧ nnn ≠ 0x0EE#12 := by
  unfold decodeFamily0
  split_ifs <;> simp [*]

theorem decodeFamilyE_error {x : Reg} {nn : Byte} :
    (∃ r, decodeFamilyE x nn = .error r) ↔ nn ≠ 0x9E#8 ∧ nn ≠ 0xA1#8 := by
  unfold decodeFamilyE
  split_ifs <;> simp [*]

theorem decodeFamilyF_error {x : Reg} {nn : Byte} :
    (∃ r, decodeFamilyF x nn = .error r) ↔
      nn ∉ [0x07#8, 0x0A#8, 0x15#8, 0x18#8, 0x1E#8, 0x29#8, 0x33#8, 0x55#8, 0x65#8] := by
  constructor
  · rintro ⟨r, h⟩ hnn
    simp only [List.mem_cons, List.not_mem_nil, or_false] at hnn
    obtain rfl | rfl | rfl | rfl | rfl | rfl | rfl | rfl | rfl := hnn <;> cases h
  · exact fun hnn => ⟨_, decodeFamilyF_reject x hnn⟩

theorem decodeFamily8_error {x y : Reg} {n : Nibble} :
    (∃ r, decodeFamily8 x y n = .error r) ↔
      n ∈ [0x8#4, 0x9#4, 0xA#4, 0xB#4, 0xC#4, 0xD#4, 0xF#4] := by
  obtain rfl | rfl | rfl | rfl | rfl | rfl | rfl | rfl | rfl | rfl | rfl | rfl | rfl | rfl | rfl | rfl :=
    nibble_cases n <;> simp [decodeFamily8]

/-- Settles O9: family by family; only 0, 8, E and F reject words. -/
theorem unsupportedWordsAreThoseListed : Obligations.UnsupportedWordsAreThoseListed := by
  intro w
  obtain h0 | h1 | h2 | h3 | h4 | h5 | h6 | h7 | h8 | h9 | hA | hB | hC | hD | hE | hF :=
    nibble_cases (opField w)
  · rw [decodeWord_of_op0 h0, decodeFamily0_error]; simp [h0]
  · rw [decodeWord_of_op1 h1]; simp [h1]
  · rw [decodeWord_of_op2 h2]; simp [h2]
  · rw [decodeWord_of_op3 h3]; simp [h3]
  · rw [decodeWord_of_op4 h4]; simp [h4]
  · rw [decodeWord_of_op5 h5]; simp [h5]
  · rw [decodeWord_of_op6 h6]; simp [h6]
  · rw [decodeWord_of_op7 h7]; simp [h7]
  · rw [decodeWord_of_op8 h8, decodeFamily8_error]; simp [h8]
  · rw [decodeWord_of_op9 h9]; simp [h9]
  · rw [decodeWord_of_opA hA]; simp [hA]
  · rw [decodeWord_of_opB hB]; simp [hB]
  · rw [decodeWord_of_opC hC]; simp [hC]
  · rw [decodeWord_of_opD hD]; simp [hD]
  · rw [decodeWord_of_opE hE, decodeFamilyE_error]; simp [hE]
  · rw [decodeWord_of_opF hF, decodeFamilyF_error]; simp [hF]

/-- Settles O10: each word decided by running the decoder on it. -/
theorem sampleWordsDecodeAsTheSpecSays : Obligations.SampleWordsDecodeAsTheSpecSays := by
  unfold Obligations.SampleWordsDecodeAsTheSpecSays
  decide

/-- Settles O11: the four forms with an ignored field are executed without reading it, and every other
form is canonical. -/
theorem ignoredFieldsChangeNothing : Obligations.IgnoredFieldsChangeNothing := by
  intro i s
  cases i <;> rfl

end Sys2Proof
end

section
/-! PROOFS. The step: where it faults, what it reports, and that it runs the bytes last stored
(40_cycle.md, 60_exceptions.md R220 to R229, 20_memory.md R77). -/

open Sys2Proof.Claims

namespace Sys2Proof.Machine

/-- The state a fetch leaves: `pc` at the following address. -/
def State.advanced (s : State) : State := { s with pc := s.pc + 2#12 }

/-- Everything a step can do (R121): fault at the fetch, pass over an unsupported word, or execute. -/
theorem step_cases (s : State) :
    (∃ f, fetchFaultOf s = some f ∧ step s = .fault f ∧ stepStatus s = some f.status) ∨
    (fetchFaultOf s = none ∧
      ((∃ r, decodeWord (wordAtPc s) = .error r ∧ step s = .next s.advanced ∧
          stepStatus s = some .unsupportedOpcode) ∨
        ∃ i, decodeWord (wordAtPc s) = .ok i ∧ step s = exec i s.advanced ∧
          stepStatus s = instrStatus i s.advanced)) := by
  obtain ⟨hnone, -, hfetch⟩ | ⟨f, hsome, hfetch⟩ := s.fetch_cases
  · refine .inr ⟨hnone, ?_⟩
    cases hdec : decodeWord (wordAtPc s) with
    | error r =>
      exact .inl ⟨r, rfl, step_of_decode_error hfetch hdec, stepStatus_of_decode_error hfetch hdec⟩
    | ok i =>
      refine .inr ⟨i, rfl, step_of_decode_ok hfetch hdec, ?_⟩
      have hdec' : decodeWord (wordOfBytes _ _) = .ok i := hdec
      simp only [stepStatus, hfetch, hdec']
      rfl
  · exact .inl ⟨f, hsome, by simp only [step, hfetch, raise], by simp only [stepStatus, hfetch]⟩

/-- R123: the fetch has no raise point exactly where an instruction can execute. -/
theorem fetchFaultOf_eq_none {s : State} : fetchFaultOf s = none ↔ fetchable s.pc := by
  have hpc := s.pc.isLt
  unfold fetchFaultOf fetchable
  split_ifs <;> simp <;> omega

/-- R123: a raise point of the fetch ends the step. -/
theorem step_of_fetchFault {s : State} {f : Fault} (h : fetchFaultOf s = some f) :
    step s = .fault f := by
  obtain ⟨f', hf', hstep, -⟩ | ⟨hnone, -⟩ := step_cases s
  · rw [hstep, Option.some.inj (hf'.symm.trans h)]
  · cases hnone.symm.trans h

/-- Settles O14: the two regions are raise points of the fetch. -/
theorem fetchFaultsWhereNoInstructionCanExecute :
    Obligations.FetchFaultsWhereNoInstructionCanExecute := by
  intro s
  have hpc := s.pc.isLt
  refine ⟨fun hlow => step_of_fetchFault ?_, fun hhigh => step_of_fetchFault ?_⟩
  · rw [fetchFaultOf, if_pos hlow]
  · rw [fetchFaultOf, if_neg (by omega)]
    by_cases hlast : s.pc.toNat = 0xFFF
    · rw [if_pos hlast]
    · rw [if_neg hlast, if_pos (by omega)]

/-- Settles O17: the fetch faults, or it passes and the step is an advance or an instruction, whose law
says where it faults. -/
theorem stepFaultsExactlyAtTheRaisePoints : Obligations.StepFaultsExactlyAtTheRaisePoints := by
  intro s
  change (∀ f, step s = .fault f ↔ fetchFaultOf s = some f ∨
    (fetchFaultOf s = none ∧ ∃ i, decodeWord (wordAtPc s) = .ok i ∧ faultOf i s.advanced = some f)) ∧ _
  obtain ⟨f, hfetch, hstep, -⟩ | ⟨hfetch, ⟨r, hdec, hstep, -⟩ | ⟨i, hdec, hstep, -⟩⟩ := step_cases s
  · simp [hfetch, hstep]
  · simp [hfetch, hdec, hstep]
  · constructor
    · simp [hfetch, hdec, hstep, exec_eq_fault]
    · cases hfault : faultOf i s.advanced with
      | none => exact .inl ⟨_, hstep.trans (exec_of_no_fault hfault)⟩
      | some f => exact .inr ⟨_, hstep.trans (exec_of_fault hfault)⟩

/-! The status -/

theorem step_ne_refused (s : State) (r : Refusal) : step s ≠ .refused r := by
  obtain ⟨t, h⟩ | ⟨f, h⟩ := (stepFaultsExactlyAtTheRaisePoints s).2 <;> rw [h] <;> exact nofun

/-- R220: a fault is reported by its own name. -/
theorem stepStatus_of_fault {s : State} {f : Fault} (h : step s = .fault f) :
    stepStatus s = some f.status := by
  obtain ⟨f', -, hstep, hst⟩ | ⟨-, ⟨r, -, hstep, -⟩ | ⟨i, -, hstep, hst⟩⟩ := step_cases s <;>
    rw [hstep] at h
  · cases h; exact hst
  · cases h
  · rw [hst, instrStatus, h]

/-- R224: only `FX0A` with no key down waits. -/
theorem awaitsKey_iff {i : Instr} {s : State} :
    awaitsKey i s = true ↔ s.keys = 0x0000#16 ∧ ∃ x, i = .ldVxK x := by
  cases i with
  | ldVxK x => simp [awaitsKey, State.noKeyDown]
  | _ => simp [awaitsKey]

/-- D10: a wait undoes the fetch advance, and nothing else was changed. -/
theorem wait_undoes_fetch {s : State} (x : Reg) (hkeys : s.keys = 0x0000#16) (hpc : fetchable s.pc) :
    effect (.ldVxK x) s.advanced = s := by
  have hback : BitVec.ofNat 12 ((s.pc + 2#12).toNat - 2) = s.pc := by
    obtain ⟨-, hhi⟩ := hpc
    apply BitVec.eq_of_toNat_eq
    rw [BitVec.toNat_ofNat, BitVec.toNat_add, BitVec.toNat_ofNat]
    omega
  simp only [effect, State.advanced, hkeys, if_true, hback]
  rw [← hkeys]

/-- The status of an instruction that completes (R221). -/
theorem instrStatus_of_next {i : Instr} {s t : State} (h : exec i s = .next t) :
    instrStatus i s = some (if awaitsKey i s then .awaitingKey else .ok) := by
  rw [instrStatus, h]

/-- Settles O15: the status follows the three ways a step completes (R221): past an unsupported word, in a
wait, and in any other instruction. -/
theorem statusSaysHowTheStepEnded : Obligations.StatusSaysHowTheStepEnded := by
  refine ⟨fun s => ⟨step_ne_refused s, fun v h => stepStatus_of_fault h, fun a h => stepStatus_of_fault h,
    fun v h => stepStatus_of_fault h, fun t hnext => ?_⟩, rfl, rfl, rfl, rfl, rfl, rfl⟩
  obtain ⟨f, -, hstep, -⟩ | ⟨hfetch, ⟨r, hdec, hstep, hst⟩ | ⟨i, hdec, hstep, hst⟩⟩ := step_cases s <;>
    rw [hstep] at hnext
  · cases hnext
  · cases hnext
    simp [hst, hdec, State.advanced]
  · rw [instrStatus_of_next hnext] at hst
    by_cases hwait : awaitsKey i s.advanced = true
    · obtain ⟨hkeys, x, rfl⟩ := awaitsKey_iff.mp hwait
      obtain ⟨-, rfl⟩ := exec_eq_next.mp hnext
      have hkeys : s.keys = 0x0000#16 := hkeys
      simp [hst, hwait, hdec, hkeys, wait_undoes_fetch x hkeys (fetchFaultOf_eq_none.mp hfetch)]
    · have hno : ¬ (s.keys = 0x0000#16 ∧ ∃ x, i = .ldVxK x) := fun h => hwait (awaitsKey_iff.mpr h)
      simp only [hst, hwait, hdec]
      simpa using hno

/-- Settles O43: the step runs `FX0A`, which waits and undoes the fetch advance. -/
theorem keyWaitWithNoKeyLeavesTheState : Obligations.KeyWaitWithNoKeyLeavesTheState := by
  intro x s hkeys hlo hhi hdec
  have hstep : step s = .next s := by
    rw [stepRunsTheDecodedInstruction s _ hlo hhi hdec, exec_ldVxK_eq]
    exact congrArg _ (wait_undoes_fetch x hkeys ⟨hlo, hhi⟩)
  refine ⟨hstep, ?_⟩
  obtain ⟨-, -, -, -, hreport⟩ := statusSaysHowTheStepEnded.1 s
  obtain ⟨-, -, hwait, -⟩ := hreport s hstep
  exact hwait.mpr ⟨hkeys, x, hdec⟩

/-! ## Stored bytes are run (R77) -/

/-- Settles O50: a fetch reads the bytes as the instruction left them. -/
theorem storedCodeIsFetchedNext : Obligations.StoredCodeIsFetchedNext := by
  intro i s hfault
  refine ⟨_, exec_of_no_fault hfault, fun u hmem hlo hhi => ?_⟩
  simp only [← effect_mem_read hfault, ← hmem]
  exact ⟨fun j hdec => stepRunsTheDecodedInstruction u j hlo hhi hdec,
    fun r hdec => (unsupportedWordAdvancesThePcOnly u r hlo hhi hdec).1⟩

/-! ## The placed word (entry 26) -/

/-- The state a word is placed in: `pc` where an instruction can execute. -/
def State.readied (s : State) : State := if fetchable s.pc then s else { s with pc := Params.resetPc }

theorem State.fetchable_readied (s : State) : fetchable s.readied.pc := by
  unfold State.readied
  split
  · assumption
  · exact (by decide : fetchable Params.resetPc)

theorem State.placeWord_eq (s : State) (w : Word) : s.placeWord w =
    { s.readied with
      mem := (s.readied.mem.write s.readied.pc.toNat (w.extractLsb' 8 8)).write
        (s.readied.pc.toNat + 1) (w.extractLsb' 0 8) } := rfl

/-- The placed word is the one at `pc`. -/
theorem wordAtPc_placeWord (s : State) (w : Word) : wordAtPc (s.placeWord w) = w := by
  obtain ⟨hlo, hhi⟩ := s.fetchable_readied
  have h0 : Memory.InRange s.readied.pc.toNat := by
    constructor <;> simp only [Config.blockHi, Config.memSize] <;> omega
  have h1 : Memory.InRange (s.readied.pc.toNat + 1) := by
    constructor <;> simp only [Config.blockHi, Config.memSize] <;> omega
  rw [wordAtPc, State.placeWord_eq]
  simpa [Memory.read_write _ _ _ h1, Memory.read_write _ _ _ h0, wordOfBytes] using wordOfBytes_bytes w

theorem decodeWord_of_decodeTableWord {w : Nat} {i : Instr} (h : decodeTableWord 16 w = some i) :
    decodeWord (tableWord 16 w) = .ok i := by
  have hbytes := decode_bytesOfWord (tableWord 16 w) []
  rw [List.append_nil] at hbytes
  rw [decodeTableWord, hbytes] at h
  cases hdec : decodeWord (tableWord 16 w) with
  | error r => rw [hdec] at h; cases h
  | ok j => rw [hdec] at h; cases h; rfl

/-- Settles O60: the step fetches the placed word, which decodes as its table word does. -/
theorem placedWordIsTheOneRun : Obligations.PlacedWordIsTheOneRun := by
  intro s w i hdec
  refine ⟨_, rfl, ?_, fun hlo hhi => ?_⟩
  · obtain ⟨hlo, hhi⟩ := s.fetchable_readied
    refine stepRunsTheDecodedInstruction (s.placeWord (tableWord 16 w)) i hlo hhi ?_
    exact (congrArg decodeWord (wordAtPc_placeWord s _)).trans (decodeWord_of_decodeTableWord hdec)
  · have hsame : s.readied = s := if_pos ⟨hlo, hhi⟩
    rw [OnlyMemory, State.withFetchWord, State.placeWord_eq, hsame]

end Sys2Proof.Machine
end

section
/-! PROOFS. The invariant (10_state.md R37): `SP` even and memory canonical in every reachable state, and
addresses in the stack slots. -/

open Sys2Proof.Claims

namespace Sys2Proof.Machine

/-- R25: `SP` changes by a call and by a return, by 2 each. -/
theorem effect_sp (i : Instr) (s : State) :
    ((∃ nnn, i = .callNnn nnn) ∧ (effect i s).sp = s.sp + 2#8) ∨
    (i = .ret ∧ (effect i s).sp = s.sp - 2#8) ∨ (effect i s).sp = s.sp := by
  cases i with
  | callNnn nnn => exact .inl ⟨⟨nnn, rfl⟩, rfl⟩
  | ret => exact .inr (.inl ⟨rfl, rfl⟩)
  | _ => exact .inr (.inr rfl)

/-- Every instruction keeps the invariant. -/
theorem effect_inv (i : Instr) {s : State} (h : s.Inv) : (effect i s).Inv := by
  obtain ⟨hwf, heven⟩ := h
  constructor
  · rw [effect_mem]
    exact Memory.wf_writes _ _ hwf
  · have hsp := s.sp.isLt
    obtain ⟨-, he⟩ | ⟨-, he⟩ | he := effect_sp i s <;> rw [he]
    · rw [BitVec.toNat_add, BitVec.toNat_ofNat]; omega
    · rw [BitVec.toNat_sub, BitVec.toNat_ofNat]; omega
    · exact heven

/-- Settles O3: the step ends in the fetched state, or in the effect of an instruction on it. -/
theorem stepKeepsTheInvariant : Obligations.StepKeepsTheInvariant := by
  intro s t hinv hstep
  have hadv : s.advanced.Inv := hinv
  obtain ⟨f, -, he, -⟩ | ⟨-, ⟨r, -, he, -⟩ | ⟨i, -, he, -⟩⟩ := step_cases s <;> rw [he] at hstep
  · cases hstep
  · cases hstep
    exact hadv
  · obtain ⟨-, rfl⟩ := exec_eq_next.mp hstep
    exact effect_inv i hadv

/-- Settles O2: `SP` is 0 and memory lists nothing. -/
theorem invariantHoldsAtReset : Obligations.InvariantHoldsAtReset :=
  ⟨Memory.wf_reset, rfl⟩

/-- The state of a session, where there is one, meets the invariant. -/
def SessionInv (c : Session) : Prop := ∀ s, c.state? = some s → s.Inv

theorem sessionInv_fresh {s : State} : SessionInv (.fresh s) ↔ s.Inv := by
  simp [SessionInv, Session.state?]

theorem sessionInv_running {s : State} : SessionInv (.running s) ↔ s.Inv := by
  simp [SessionInv, Session.state?]

theorem sessionInv_halted : SessionInv .halted := nofun

/-- A step leads on to a session that meets the invariant. -/
theorem afterStep_keeps_inv {s : State} {c : Session} (hs : s.Inv)
    (hact : Session.afterStep (step s) = some c) : SessionInv c := by
  cases hstep : step s with
  | next t =>
    rw [hstep] at hact
    cases hact
    exact sessionInv_running.mpr (stepKeepsTheInvariant s t hs hstep)
  | fault f =>
    rw [hstep] at hact
    cases hact
    exact sessionInv_halted
  | refused r =>
    rw [hstep] at hact
    cases hact

/-- A load writes memory only, byte by byte (R80). -/
theorem hostLoad_inv (bytes : List Byte) {s : State} (h : s.Inv) : (hostLoad bytes s).Inv :=
  ⟨Memory.wf_writes _ _ h.1, h.2⟩

/-- A key write leaves `SP` and memory (R235). -/
theorem hostSetKeys_inv (k : Word) {s : State} (h : s.Inv) : (hostSetKeys k s).Inv := h

/-- A tick leaves `SP` and memory (R233). -/
theorem hostTimerTick_inv {s : State} (h : s.Inv) : (hostTimerTick s).Inv := h

theorem act_reset (c : Session) : c.act .reset = some (.fresh State.reset) := by
  cases c <;> rfl

/-- Every host operation keeps the invariant (R240). -/
theorem act_keeps_inv {c c' : Session} {op : HostOp} (hc : SessionInv c) (hact : c.act op = some c') :
    SessionInv c' := by
  cases op with
  | reset =>
    rw [act_reset] at hact
    cases hact
    exact sessionInv_fresh.mpr invariantHoldsAtReset
  | load bytes =>
    cases c with
    | fresh s => cases hact; exact sessionInv_fresh.mpr (hostLoad_inv bytes (sessionInv_fresh.mp hc))
    | running s => cases hact
    | halted => cases hact
  | step =>
    cases c with
    | fresh s => exact afterStep_keeps_inv (sessionInv_fresh.mp hc) hact
    | running s => exact afterStep_keeps_inv (sessionInv_running.mp hc) hact
    | halted => cases hact
  | setKeys k =>
    cases c with
    | fresh s => cases hact; exact sessionInv_fresh.mpr (hostSetKeys_inv k (sessionInv_fresh.mp hc))
    | running s => cases hact; exact sessionInv_running.mpr (hostSetKeys_inv k (sessionInv_running.mp hc))
    | halted => cases hact
  | timerTick =>
    cases c with
    | fresh s => cases hact; exact sessionInv_fresh.mpr (hostTimerTick_inv (sessionInv_fresh.mp hc))
    | running s => cases hact; exact sessionInv_running.mpr (hostTimerTick_inv (sessionInv_running.mp hc))
    | halted => cases hact

theorem acts_keep_inv {c c' : Session} {ops : List HostOp} (hc : SessionInv c)
    (hacts : c.acts ops = some c') : SessionInv c' := by
  induction ops generalizing c with
  | nil => cases hacts; exact hc
  | cons op ops ih =>
    simp only [Session.acts] at hacts
    split at hacts
    · exact ih (act_keeps_inv hc ‹_›) hacts
    · cases hacts

/-- Settles O4: every host operation keeps the invariant, so every sequence of them does. -/
theorem reachableStatesMeetTheInvariant : Obligations.ReachableStatesMeetTheInvariant := by
  rintro s ⟨ops, c, hacts, hs⟩
  exact acts_keep_inv (sessionInv_fresh.mpr invariantHoldsAtReset) hacts s hs

/-! ## The stack slots (R37 (c)) -/

/-- A call fills the slot above those in use, with an address. -/
theorem call_keeps_slots {nnn : Addr} {s : State} (heven : s.sp.toNat % 2 = 0)
    (hsp : s.sp.toNat ≤ 252) (hs : SlotsHoldAddresses s) :
    SlotsHoldAddresses (effect (.callNnn nnn) s) := by
  intro k hk
  have hsp' : (s.sp + 2#8).toNat = s.sp.toNat + 2 := by
    rw [BitVec.toNat_add, BitVec.toNat_ofNat]; omega
  have hk' : 2 * k < s.sp.toNat + 2 := hsp' ▸ hk
  rw [call_mem_read _ hsp]
  by_cases hnew : 2 * k = s.sp.toNat
  · have hpc := s.pc.isLt
    rw [if_pos (by omega), BitVec.toNat_ofNat]
    omega
  · rw [if_neg (by omega), if_neg (by omega)]
    exact hs k (by omega)

/-- Settles O5: a call adds a slot that holds an address, a return takes one off, and nothing else stores
where the slots in use lie. -/
theorem stackSlotsStayAddresses : Obligations.StackSlotsStayAddresses := by
  intro i s t heven hs hstore hexec
  obtain ⟨hfault, rfl⟩ := exec_eq_next.mp hexec
  by_cases hcall : ∃ nnn, i = .callNnn nnn
  · obtain ⟨nnn, rfl⟩ := hcall
    exact call_keeps_slots heven (faultOf_callNnn_eq_none.mp hfault) hs
  · have hle : (effect i s).sp.toNat ≤ s.sp.toNat := by
      obtain ⟨hi, -⟩ | ⟨rfl, he⟩ | he := effect_sp i s
      · exact absurd hi hcall
      · have hsp : 2 ≤ s.sp.toNat := by
          by_contra hlow
          simp [faultOf, show s.sp.toNat < 2 by omega] at hfault
        have := s.sp.isLt
        rw [he, BitVec.toNat_sub, BitVec.toNat_ofNat]
        omega
      · exact he ▸ le_refl _
    intro k hk
    have hsp := s.sp.isLt
    rw [effect_mem_read_outside]
    · exact hs k (by omega)
    · intro base n hst
      have := hstore base n (fun nnn hi => hcall ⟨nnn, hi⟩) hst
      omega

end Sys2Proof.Machine
end

section
/-! PROOFS. Skips, registers and arithmetic (42_op3_op7_skip_load.md, 43_op8_alu.md, 44_op9_opC_misc.md,
46_opE_keys.md). -/

open Sys2Proof.Claims

namespace Sys2Proof.Machine

/-! ## Skips (R150) -/

theorem overPc_eq_none {v : Nat} : overPc v = none ↔ v ≤ 0xFFF := by
  simp [overPc]

theorem overPc_of_lt {v : Nat} (h : 0xFFF < v) : overPc v = some (.addressOverflow v) := if_pos h

/-- A skip with room, or not taken, raises nothing. -/
theorem skipFault_eq_none {c : Bool} {s : State} (h : c = true → s.pc.toNat + 2 ≤ 0xFFF) :
    skipFault c s = none := by
  cases c
  · rfl
  · exact overPc_eq_none.mpr (h rfl)

/-- A taken skip without room (R225 row 3). -/
theorem skipFault_of_taken {c : Bool} {s : State} (hc : c = true) (h : 0xFFE ≤ s.pc.toNat) :
    skipFault c s = some (.addressOverflow (s.pc.toNat + 2)) := by
  rw [skipFault, if_pos hc]
  exact overPc_of_lt (by omega)

/-- A key instruction with an operand up to 15 faults as its skip does. -/
theorem keyFault_of_le {v : Byte} (c : Bool) (s : State) (h : v.toNat ≤ 15) :
    keyFault v c s = skipFault c s := if_neg (by omega)

theorem keyFault_of_lt {v : Byte} (c : Bool) (s : State) (h : 15 < v.toNat) :
    keyFault v c s = some (.operandOutOfRange v.toNat) := if_pos h

/-- Settles O24: neither skip raises, and each goes on where its condition says. -/
theorem skipsOnAnImmediate : Obligations.SkipsOnAnImmediate := by
  intro x nn s
  refine ⟨fun hroom => ?_, fun hroom => ?_⟩
  · rw [exec_of_no_fault (i := .seVxNn x nn) (skipFault_eq_none (by simpa using hroom))]
    simp only [effect, State.skipped, beq_iff_eq]
  · rw [exec_of_no_fault (i := .sneVxNn x nn) (skipFault_eq_none (by simpa using hroom))]
    simp only [effect, State.skipped, bne_iff_ne]

/-- Settles O25: neither skip raises, and each goes on where its condition says, `N` unread. -/
theorem skipsOnTwoRegisters : Obligations.SkipsOnTwoRegisters := by
  intro x y n s
  refine ⟨fun hroom => ?_, fun hroom => ?_⟩
  · rw [exec_of_no_fault (i := .seVxVy x y n) (skipFault_eq_none (by simpa using hroom))]
    simp only [effect, State.skipped, beq_iff_eq]
  · rw [exec_of_no_fault (i := .sneVxVy x y n) (skipFault_eq_none (by simpa using hroom))]
    simp only [effect, State.skipped, bne_iff_ne]

/-- Settles O26: a key number up to 15 is in range, so only the skip could raise. -/
theorem skipsOnAKey : Obligations.SkipsOnAKey := by
  intro x s hkey
  refine ⟨fun hroom => ?_, fun hroom => ?_⟩
  · rw [exec_of_no_fault (i := .skpVx x)
      ((keyFault_of_le _ s hkey).trans (skipFault_eq_none hroom))]
    rfl
  · rw [exec_of_no_fault (i := .sknpVx x)
      ((keyFault_of_le _ s hkey).trans (skipFault_eq_none (by simpa using hroom)))]
    cases hdown : s.keys.getLsbD (s.reg x).toNat <;> simp [effect, State.skipped, hdown]

/-- Settles O27: each skip is taken, so each has the raise point of a taken skip. -/
theorem takenSkipPastTheEndFaults : Obligations.TakenSkipPastTheEndFaults := by
  intro x y nn n s hend
  refine ⟨fun h => ?_, fun h => ?_, fun h => ?_, fun h => ?_, fun hkey h => ?_, fun hkey h => ?_⟩ <;>
    apply exec_of_fault
  · exact skipFault_of_taken (by simpa using h) hend
  · exact skipFault_of_taken (by simpa using h) hend
  · exact skipFault_of_taken (by simpa using h) hend
  · exact skipFault_of_taken (by simpa using h) hend
  · exact (keyFault_of_le _ s hkey).trans (skipFault_of_taken h hend)
  · exact (keyFault_of_le _ s hkey).trans (skipFault_of_taken (by simpa using h) hend)

/-- Settles O28: the operand's range is the first raise point of all three. -/
theorem operandAbove15Faults : Obligations.OperandAbove15Faults := by
  intro x s hbig
  exact ⟨exec_of_fault (keyFault_of_lt _ s hbig), exec_of_fault (keyFault_of_lt _ s hbig),
    exec_of_fault (if_pos hbig)⟩

/-! ## Registers -/

theorem onlyRegisters_setReg (s : State) (x : Reg) (b : Byte) : OnlyRegisters s (s.setReg x b) := rfl

theorem othersSame_setReg (s : State) (x : Reg) (b : Byte) : OthersSame x s (s.setReg x b) := by
  intro r hr
  rw [State.reg_setReg, if_neg hr.symm]

theorem onlyRegisters_setRegFlag (s : State) (x : Reg) (b : Byte) (f : Bool) :
    OnlyRegisters s (s.setRegFlag x b f) := rfl

/-- The flag is written last (R160). -/
@[simp] theorem State.reg_setRegFlag_flag (s : State) (x : Reg) (b : Byte) (f : Bool) :
    (s.setRegFlag x b f).reg VF = flagByte f := by
  rw [State.setRegFlag_eq, State.reg_setReg_same]

theorem State.reg_setRegFlag_result (s : State) {x : Reg} (b : Byte) (f : Bool) (hx : x ≠ VF) :
    (s.setRegFlag x b f).reg x = b := by
  rw [State.setRegFlag_eq, State.reg_setReg, if_neg hx.symm, State.reg_setReg_same]

theorem othersSameBarFlag_setRegFlag (s : State) (x : Reg) (b : Byte) (f : Bool) :
    OthersSameBarFlag x s (s.setRegFlag x b f) := by
  intro r hr hflag
  rw [State.setRegFlag_eq, State.reg_setReg, if_neg hflag.symm, State.reg_setReg, if_neg hr.symm]

/-- A flag byte is the bit of its condition (R22). -/
theorem flagByte_decide (p : Prop) [Decidable p] : flagByte (decide p) = bit p := by
  simp [flagByte, bit]

/-- What the five flag instructions have in common (R160): a result in `VX`, a flag in `VF` last, and
nothing else. -/
theorem exec_setRegFlag {i : Instr} {s : State} {x : Reg} {b : Byte} {f : Bool} {p : Prop} [Decidable p]
    {n : Nat} (hexec : exec i s = .next (s.setRegFlag x b f)) (hflag : f = decide p) (hb : b.toNat = n) :
    ∃ t : State, exec i s = .next t ∧ OnlyRegisters s t ∧ t.reg VF = bit p ∧
      (x ≠ VF → (t.reg x).toNat = n) ∧ OthersSameBarFlag x s t := by
  refine ⟨_, hexec, onlyRegisters_setRegFlag s x b f, ?_, fun hx => ?_,
    othersSameBarFlag_setRegFlag s x b f⟩
  · rw [State.reg_setRegFlag_flag, hflag, flagByte_decide]
  · rw [State.reg_setRegFlag_result s b f hx, hb]

/-- Settles O32: the carry is the sum above 255, the result the sum modulo 256. -/
theorem addReportsTheCarry : Obligations.AddReportsTheCarry := by
  intro x y s
  exact exec_setRegFlag (exec_eq (.addVxVy x y) s) rfl (BitVec.toNat_add _ _)

/-- A difference of bytes, as a number. -/
theorem toNat_byte_sub (a b : Byte) : (a - b).toNat = (a.toNat + 256 - b.toNat) % 256 := by
  have hb := b.isLt
  rw [BitVec.toNat_sub]
  omega

/-- Settles O33: the borrow is the comparison, the result the difference modulo 256. -/
theorem subtractsReportTheBorrow : Obligations.SubtractsReportTheBorrow := by
  intro x y s
  exact ⟨exec_setRegFlag (exec_eq (.subVxVy x y) s) rfl (toNat_byte_sub _ _),
    exec_setRegFlag (exec_eq (.subnVxVy x y) s) rfl (toNat_byte_sub _ _)⟩

/-- The bit a right shift drops is the parity. -/
theorem shiftedOutRight_eq (a : Byte) : shiftedOutRight a = decide (a.toNat % 2 = 1) := by
  rw [shiftedOutRight, BitVec.getLsbD, Nat.testBit_zero]

/-- The bit a left shift drops is the top half. -/
theorem shiftedOutLeft_eq (a : Byte) : shiftedOutLeft a = decide (128 ≤ a.toNat) := by
  exact BitVec.msb_eq_decide a

/-- Settles O34: the bit shifted out is the parity or the top bit, the result the half or the double. -/
theorem shiftsReportTheBitShiftedOut : Obligations.ShiftsReportTheBitShiftedOut := by
  intro x y s
  constructor
  · refine exec_setRegFlag (exec_eq (.shrVx x y) s) (shiftedOutRight_eq _) ?_
    rw [BitVec.toNat_ushiftRight, Nat.shiftRight_eq_div_pow, pow_one]
  · refine exec_setRegFlag (exec_eq (.shlVx x y) s) (shiftedOutLeft_eq _) ?_
    rw [BitVec.toNat_shiftLeft, Nat.shiftLeft_eq, pow_one, Nat.mul_comm]

/-- Settles O30: one register is written, with the sum modulo 256. -/
theorem addImmediateWrapsAndWritesNoFlag : Obligations.AddImmediateWrapsAndWritesNoFlag := by
  intro x nn s
  refine ⟨_, exec_eq (.addVxNn x nn) s, onlyRegisters_setReg s x _, ?_, othersSame_setReg s x _⟩
  rw [effect, State.reg_setReg_same, BitVec.toNat_add]

/-- Settles O31: each of the four is one register write. -/
theorem logicWritesItsRegisterOnly : Obligations.LogicWritesItsRegisterOnly := by
  intro x y s
  exact ⟨exec_eq (.ldVxVy x y) s, exec_eq (.orVxVy x y) s, exec_eq (.andVxVy x y) s,
    exec_eq (.xorVxVy x y) s⟩

/-- Settles O36: the sum goes through `SetPC`. -/
theorem indexedJumpAddsV0 : Obligations.IndexedJumpAddsV0 := by
  intro nnn s
  split
  · exact exec_of_no_fault (i := .jpV0Nnn nnn) (overPc_eq_none.mpr ‹_›)
  · exact exec_of_fault (overPc_of_lt (by omega))

/-- Settles O37: the byte drawn is masked, and a masked byte is a submask. -/
theorem randomIsMaskedByNn : Obligations.RandomIsMaskedByNn := by
  intro x nn s
  refine ⟨_, exec_eq (.rndVxNn x nn) s, rfl, ?_, ?_, ?_⟩
  · rw [effect, State.reg_setReg_same]
  · rw [effect, State.reg_setReg_same, BitVec.and_assoc, BitVec.and_self]
  · exact othersSame_setReg { s with draws := s.draws + 1 } x _

/-- Settles O42: with a key down the low byte of the latch is written to `VX`. -/
theorem keyWaitStoresTheLatch : Obligations.KeyWaitStoresTheLatch := by
  intro x s hkeys
  have heffect : effect (.ldVxK x) s = s.setReg x (s.keys.setWidth 8) := by
    simp only [effect, hkeys, if_false]
    rfl
  refine ⟨_, (exec_ldVxK_eq x s).trans (congrArg _ heffect), onlyRegisters_setReg s x _, ?_,
    othersSame_setReg s x _⟩
  rw [State.reg_setReg_same, BitVec.toNat_setWidth]

/-- Settles O44: a digit up to 15 has a glyph. -/
theorem glyphAddressOfADigit : Obligations.GlyphAddressOfADigit := by
  intro x s hdigit
  exact exec_of_no_fault (i := .ldFVx x) (if_neg (by omega))

end Sys2Proof.Machine
end

section
/-! PROOFS. Call and return (41_op0_op2_flow.md R142, R144, R145). -/

open Sys2Proof.Claims

namespace Sys2Proof.Machine

theorem sp_add_two {s : State} (h : s.sp.toNat ≤ 252) : (s.sp + 2#8).toNat = s.sp.toNat + 2 := by
  rw [BitVec.toNat_add, BitVec.toNat_ofNat]
  omega

theorem sp_sub_two {s : State} (h : 2 ≤ s.sp.toNat) : (s.sp - 2#8).toNat = s.sp.toNat - 2 := by
  have := s.sp.isLt
  rw [BitVec.toNat_sub, BitVec.toNat_ofNat]
  omega

/-- The raise points of a return (R142). -/
theorem faultOf_ret_eq_none {s : State} :
    faultOf .ret s = none ↔ 2 ≤ s.sp.toNat ∧ poppedValue s ≤ 0xFFF := by
  by_cases hsp : s.sp.toNat < 2
  · simp [faultOf, hsp]
  · simp only [faultOf, if_neg hsp, overPc_eq_none, Nat.not_lt.mp hsp, true_and]

/-- The two bytes of a slot give back the address pushed. -/
theorem slot_bytes_value (a : Addr) :
    256 * (BitVec.ofNat 8 (a.toNat / 256)).toNat + (BitVec.ofNat 8 (a.toNat % 256)).toNat = a.toNat := by
  have ha := a.isLt
  rw [BitVec.toNat_ofNat, BitVec.toNat_ofNat]
  omega

/-- Settles O20: the call has a slot left, and its two bytes are those of the following address. -/
theorem callPushesTheFollowingAddress : Obligations.CallPushesTheFollowingAddress := by
  intro nnn s hsp
  refine ⟨_, exec_of_no_fault (faultOf_callNnn_eq_none.mpr hsp), rfl, sp_add_two hsp, ?_, ?_,
    fun a hhigh hlow => ?_⟩ <;> rw [call_mem_read _ hsp]
  · rw [if_pos rfl]
  · rw [if_neg (by omega), if_pos rfl]
  · rw [if_neg hhigh, if_neg hlow]

/-- Settles O21: the popped value fits in `pc`. -/
theorem returnPopsTheAddress : Obligations.ReturnPopsTheAddress := by
  intro s hsp hfits
  have hfits : poppedValue s ≤ 0xFFF := hfits
  refine ⟨_, exec_of_no_fault (faultOf_ret_eq_none.mpr ⟨hsp, hfits⟩), rfl, sp_sub_two hsp, ?_⟩
  exact (BitVec.toNat_ofNat ..).trans (Nat.mod_eq_of_lt (by omega))

/-- Settles O22: the raise points of a call and of a return. -/
theorem stackFaults : Obligations.StackFaults := by
  intro nnn s
  refine ⟨fun hfull => exec_of_fault (if_pos hfull), fun hempty => exec_of_fault (if_pos hempty),
    fun hsp hbig => exec_of_fault ?_⟩
  rw [faultOf, if_neg (by omega), overPc_of_lt hbig]

/-- R145: a return from where the call's slot is the top one and still holds its bytes undoes the call. -/
theorem return_after_call {nnn : Addr} {s called u : State} (hroom : s.sp.toNat ≤ 252)
    (hcalled : effect (.callNnn nnn) s = called) (hsp : u.sp = called.sp)
    (hslot : ∀ a, 0x1FE - s.sp.toNat ≤ a → u.mem.read a = called.mem.read a) :
    exec .ret u = .next { u with sp := s.sp, pc := s.pc } := by
  subst hcalled
  have husp : u.sp.toNat = s.sp.toNat + 2 := by rw [hsp]; exact sp_add_two hroom
  have hpop : poppedValue u = s.pc.toNat := by
    rw [poppedValue, husp, hslot _ (by omega), hslot _ (by omega), call_mem_read _ hroom,
      call_mem_read _ hroom, if_pos (by omega), if_neg (by omega), if_pos (by omega), slot_bytes_value]
  have hpc := s.pc.isLt
  have hback : u.sp - 2#8 = s.sp := by rw [hsp]; exact BitVec.add_sub_cancel _ _
  rw [exec_of_no_fault (faultOf_ret_eq_none.mpr ⟨by omega, by omega⟩)]
  simp only [effect, hpop, hback, BitVec.ofNat_toNat, BitVec.setWidth_eq]

theorem returnAll_append {l l' : List Addr} {s last : State} :
    returnAll (l ++ l') s last ↔ ∃ mid, returnAll l s mid ∧ returnAll l' mid last := by
  induction l generalizing s with
  | nil => simp [returnAll]
  | cons back rest ih =>
    simp only [List.cons_append, returnAll, ih]
    constructor
    · rintro ⟨t, hret, hpc, mid, hrest, hlast⟩
      exact ⟨mid, ⟨t, hret, hpc, hrest⟩, hlast⟩
    · rintro ⟨mid, ⟨t, hret, hpc, hrest⟩, hlast⟩
      exact ⟨t, hret, hpc, mid, hrest, hlast⟩

/-- Settles O23: by induction on the calls. The first call's slot lies above all later ones, so it is still
there when the later calls have returned, and the last return undoes the first call. -/
theorem callsAndReturnsAreSymmetric : Obligations.CallsAndReturnsAreSymmetric := by
  intro calls
  induction calls with
  | nil => exact fun s _ _ => ⟨s, s, rfl, rfl, rfl, rfl, fun _ _ => rfl⟩
  | cons call rest ih =>
    obtain ⟨following, target⟩ := call
    intro s heven hroom
    rw [List.length_cons] at hroom
    have hslot : s.sp.toNat ≤ 252 := by omega
    generalize hcalled : effect (.callNnn target) { s with pc := following } = called
    have hcall : exec (.callNnn target) { s with pc := following } = .next called :=
      hcalled ▸ exec_of_no_fault (faultOf_callNnn_eq_none.mpr hslot)
    have hsp : called.sp.toNat = s.sp.toNat + 2 := by rw [← hcalled]; exact sp_add_two hslot
    obtain ⟨t, u, hcalls, htsp, hrets, hu, hmem⟩ := ih called (by omega) (by omega)
    have husp : u.sp = called.sp := (congrArg State.sp hu :)
    have hret : exec .ret u = .next { u with sp := s.sp, pc := following } :=
      return_after_call (s := { s with pc := following }) hslot hcalled husp fun a ha =>
        hmem a (.inr (by dsimp only at ha; omega))
    refine ⟨t, { u with sp := s.sp, pc := following }, ?_, ?_, ?_, ?_, fun a ha => ?_⟩
    · rw [callAll, hcall]; exact hcalls
    · rw [htsp, hsp, List.length_cons]; omega
    · rw [List.map_cons, List.reverse_cons, returnAll_append]
      exact ⟨u, hrets, _, hret, rfl, rfl⟩
    · rw [hu, ← hcalled]; rfl
    · rw [List.length_cons] at ha
      have hkept : (effect (.callNnn target) { s with pc := following }).mem.read a = s.mem.read a := by
        refine effect_mem_read_outside fun base n hst => ?_
        cases hst
        simp only [Params.stackSlot]
        omega
      calc u.mem.read a = called.mem.read a := hmem a (by omega)
        _ = s.mem.read a := by rw [← hcalled, hkept]

end Sys2Proof.Machine
end

section
/-! PROOFS. BCD and the register transfers (47_opF_timers_memory.md R212 to R215), the raise points of data
accesses (60_exceptions.md R225, R226), and the canonical form of memory (entry 2). -/

open Sys2Proof.Claims

namespace Sys2Proof.Machine

/-- Data in reach raises nothing. -/
theorem dataFault_eq_none {n : Nat} {s : State} (lo : 0x050 ≤ s.i.toNat) (hi : s.i.toNat + n ≤ 0x1000) :
    dataFault n s = none := by
  rw [dataFault, if_neg (show ¬ s.i.toNat ≤ 0x04F by omega),
    if_neg (show ¬ s.i.toNat + n > 0x1000 by omega), ite_self]

theorem dataFault_block {n : Nat} {s : State} (hn : n ≠ 0) (h : s.i.toNat ≤ 0x04F) :
    dataFault n s = some (.privateRegionAccess s.i.toNat) := by
  rw [dataFault, if_neg hn, if_pos h]

theorem dataFault_over {n : Nat} {s : State} (lo : 0x050 ≤ s.i.toNat) (hi : 0x1000 < s.i.toNat + n) :
    dataFault n s = some (.addressOverflow 0x1000) := by
  have hI := s.i.isLt
  rw [dataFault, if_neg (by omega), if_neg (by omega), if_pos hi]

/-- Settles O49: all four have the raise points of data accesses, of `N`, 3 and `X + 1` bytes. -/
theorem dataAccessesFaultOutsideMemory : Obligations.DataAccessesFaultOutsideMemory := by
  intro x y n s
  have hx : x.toNat + 1 ≠ 0 := Nat.succ_ne_zero _
  refine ⟨fun hblock => ⟨fun hn => ?_, ?_, ?_, ?_⟩,
    fun lo => ⟨fun hi => ?_, fun hi => ?_, fun hi => ⟨?_, ?_⟩⟩⟩ <;> apply exec_of_fault
  · exact dataFault_block (fun h => hn (BitVec.eq_of_toNat_eq h)) hblock
  · exact dataFault_block (by decide) hblock
  · exact dataFault_block hx hblock
  · exact dataFault_block hx hblock
  · exact dataFault_over lo hi
  · exact dataFault_over lo (by omega)
  · exact dataFault_over lo (by omega)
  · exact dataFault_over lo (by omega)

/-- A byte that an instruction stores is read back. -/
theorem effect_mem_read_stored {i : Instr} {s : State} {base n k : Nat} (hfault : faultOf i s = none)
    (hst : storesAt i s = some (base, n)) (hk : k < n) :
    (effect i s).mem.read (base + k) = (storedBytes i s).getD k 0x00#8 := by
  rw [effect_mem_read hfault, byteAfter, hst]
  simp [hk]

/-- Settles O45: the three bytes stored are the digits, each below 256. -/
theorem bcdStoresThreeDigits : Obligations.BcdStoresThreeDigits := by
  intro x s lo hi
  have hfault : faultOf (.ldBVx x) s = none := dataFault_eq_none lo (by omega)
  have hx := (s.reg x).isLt
  refine ⟨_, exec_of_no_fault hfault, rfl, ?_, ?_, ?_, fun a ha => ?_⟩
  · have hread := effect_mem_read_stored (k := 0) hfault rfl (by decide)
    rw [Nat.add_zero] at hread
    rw [hread]
    exact (BitVec.toNat_ofNat ..).trans (Nat.mod_eq_of_lt (by omega))
  · rw [effect_mem_read_stored (k := 1) hfault rfl (by decide)]
    exact (BitVec.toNat_ofNat ..).trans (Nat.mod_eq_of_lt (by omega))
  · rw [effect_mem_read_stored (k := 2) hfault rfl (by decide)]
    exact (BitVec.toNat_ofNat ..).trans (Nat.mod_eq_of_lt (by omega))
  · refine effect_mem_read_outside fun base n hst => ?_
    cases hst
    exact ha

/-- Settles O46: the byte stored at `I + r` is register `r`. -/
theorem storeWritesTheRegisters : Obligations.StoreWritesTheRegisters := by
  intro x s lo hi
  have hfault : faultOf (.ldMemVx x) s = none := dataFault_eq_none lo (by omega)
  refine ⟨_, exec_of_no_fault hfault, rfl, fun r hr => ?_, fun a ha => ?_⟩
  · rw [effect_mem_read_stored hfault rfl (Nat.lt_succ_of_le hr)]
    simp [storedBytes, Nat.lt_succ_of_le hr]
  · refine effect_mem_read_outside fun base n hst => ?_
    cases hst
    omega

/-- A register after `FX65`. -/
theorem reg_effect_ldVxMem (x r : Reg) (s : State) : (effect (.ldVxMem x) s).reg r =
    if r.toNat ≤ x.toNat then s.mem.read (s.i.toNat + r.toNat) else s.reg r := by
  have hx := x.isLt
  change (s.setRegsFrom 0 (s.bytesAtI (x.toNat + 1))).reg r = _
  rw [State.reg_setRegsFrom _ _ _ _ (by rw [State.length_bytesAtI]; omega)]
  simp

/-- Settles O47: register `r` up to `X` is loaded with the byte at `I + r`. -/
theorem loadReadsTheRegisters : Obligations.LoadReadsTheRegisters := by
  intro x s lo hi
  have hfault : faultOf (.ldVxMem x) s = none := dataFault_eq_none lo (by omega)
  refine ⟨_, exec_of_no_fault hfault, rfl, fun r hr => ?_, fun r hr => ?_⟩ <;> rw [reg_effect_ldVxMem]
  · rw [if_pos hr]
  · rw [if_neg (by omega)]

/-- Settles O48: the store leaves `I`, so the load reads back the bytes stored. -/
theorem storeThenLoadRestoresTheRegisters : Obligations.StoreThenLoadRestoresTheRegisters := by
  intro x s v lo hi
  obtain ⟨t, hstore, honly, hstored, -⟩ := storeWritesTheRegisters x s lo hi
  have hI : t.i = s.i := (congrArg State.i honly :)
  rw [← hI] at lo hi hstored
  obtain ⟨u, hload, -, hloaded, -⟩ := loadReadsTheRegisters x { t with v := v } lo hi
  exact ⟨t, u, hstore, hload, fun r hr => (hloaded r hr).trans (hstored r hr)⟩

/-! ## The canonical form -/

/-- What memory in canonical form lists from `lo` on: in order, and no reset contents. -/
theorem Memory.wfFrom_cons {lo k : Nat} {b : Byte} {m : Memory} :
    Memory.wfFrom lo ((k, b) :: m) = true ↔
      lo < k ∧ k < Config.memSize ∧ b ≠ Memory.unlisted k ∧ Memory.wfFrom k m = true := by
  simp [Memory.wfFrom, and_assoc]

theorem Memory.lookup_of_le {lo a : Nat} {m : Memory} (h : Memory.wfFrom lo m = true) (ha : a ≤ lo) :
    m.lookup a = none := by
  induction m generalizing lo with
  | nil => rfl
  | cons e rest ih =>
    obtain ⟨k, b⟩ := e
    obtain ⟨hk, -, -, hrest⟩ := Memory.wfFrom_cons.mp h
    rw [Memory.lookup, if_neg (by omega)]
    exact ih hrest (by omega)

/-- A listed byte differs from the reset contents, so a read tells whether an address is listed. -/
theorem Memory.lookup_ne_unlisted {lo a : Nat} {m : Memory} {b : Byte} (h : Memory.wfFrom lo m = true)
    (hb : m.lookup a = some b) : b ≠ Memory.unlisted a := by
  induction m generalizing lo with
  | nil => cases hb
  | cons e rest ih =>
    obtain ⟨k, c⟩ := e
    obtain ⟨-, -, hc, hrest⟩ := Memory.wfFrom_cons.mp h
    rw [Memory.lookup] at hb
    split at hb
    · subst k; cases hb; exact hc
    · exact ih hrest hb

theorem Memory.lookup_eq_of_read_eq {m m' : Memory} {a : Nat} (h : m.wf = true) (h' : m'.wf = true)
    (hread : m.read a = m'.read a) : m.lookup a = m'.lookup a := by
  have hne := fun b => Memory.lookup_ne_unlisted (a := a) (b := b) h
  have hne' := fun b => Memory.lookup_ne_unlisted (a := a) (b := b) h'
  unfold Memory.read at hread
  cases hl : m.lookup a with
  | none =>
    cases hl' : m'.lookup a with
    | none => rfl
    | some b' => rw [hl, hl'] at hread; exact absurd hread.symm (hne' b' hl')
  | some b =>
    cases hl' : m'.lookup a with
    | none => rw [hl, hl'] at hread; exact absurd hread (hne b hl)
    | some b' => rw [hl, hl'] at hread; exact congrArg some hread

/-- Rising lists that list the same bytes are equal. -/
theorem Memory.eq_of_lookup_eq {lo lo' : Nat} {m m' : Memory} (h : Memory.wfFrom lo m = true)
    (h' : Memory.wfFrom lo' m' = true) (heq : ∀ a, m.lookup a = m'.lookup a) : m = m' := by
  induction m generalizing lo lo' m' with
  | nil =>
    cases m' with
    | nil => rfl
    | cons e' rest' => simpa [Memory.lookup] using heq e'.1
  | cons e rest ih =>
    obtain ⟨k, b⟩ := e
    obtain ⟨-, -, -, hrest⟩ := Memory.wfFrom_cons.mp h
    cases m' with
    | nil => simpa [Memory.lookup] using heq k
    | cons e' rest' =>
      obtain ⟨k', b'⟩ := e'
      obtain ⟨-, -, -, hrest'⟩ := Memory.wfFrom_cons.mp h'
      have hk := heq k
      have hk' := heq k'
      obtain rfl : k = k' := by
        rcases Nat.lt_trichotomy k k' with hlt | hsame | hgt
        · rw [Memory.lookup, Memory.lookup, if_pos rfl, if_neg (by omega),
            Memory.lookup_of_le hrest' (by omega)] at hk
          cases hk
        · exact hsame
        · rw [Memory.lookup, Memory.lookup, if_pos rfl, if_neg (by omega),
            Memory.lookup_of_le hrest (by omega)] at hk'
          cases hk'
      obtain rfl : b = b' := by simpa [Memory.lookup] using hk
      rw [ih hrest hrest' fun a => ?_]
      by_cases ha : a ≤ k
      · rw [Memory.lookup_of_le hrest ha, Memory.lookup_of_le hrest' ha]
      · simpa [Memory.lookup, show k ≠ a by omega] using heq a

/-- Settles O6: reads tell what is listed, and the order is fixed. -/
theorem canonicalMemoriesThatReadAlikeAreEqual :
    Obligations.CanonicalMemoriesThatReadAlikeAreEqual := by
  intro m m' h h' hread
  exact Memory.eq_of_lookup_eq h h' fun a => Memory.lookup_eq_of_read_eq h h' (hread a)

end Sys2Proof.Machine
end

section
/-! PROOFS. Drawing a sprite (45_opD_draw.md R194, R195). -/

open Sys2Proof.Claims

namespace Sys2Proof.Machine

/-- The pixels the model's rows land on are those the sprite covers. -/
theorem rowsLand_eq_spriteCovers (x y : Reg) (n : Nat) (s : State) {px py : Nat} (hx : px < 64)
    (hy : py < 32) :
    rowsLand ((s.reg x).toNat % 64) ((s.reg y).toNat % 32) (s.bytesAtI n) px py =
      spriteCovers x y n s px py := by
  have hrow : ∀ r, r < n → (s.bytesAtI n).getD r 0#8 = s.mem.read (s.i.toNat + r) := by
    intro r hr
    rw [List.getD_eq_getElem _ _ (by rwa [State.length_bytesAtI]), State.getElem_bytesAtI]
  rw [Bool.eq_iff_iff]
  simp only [rowsLand, columnsLand, columnLands, spriteCovers, List.any_eq_true, List.mem_range,
    State.length_bytesAtI, Nat.mod_add_mod, Nat.mod_eq_of_lt hx, Nat.mod_eq_of_lt hy]
  refine exists_congr fun r => and_congr_right fun hr => ?_
  rw [hrow r hr]
  rfl

/-- A sprite has fewer rows than the display, so no two of its rows land on the same one. -/
theorem length_sprite_le (n : Nibble) (s : State) : (s.bytesAtI n.toNat).length ≤ 32 := by
  have := n.isLt
  rw [State.length_bytesAtI]
  omega

/-- A drawn sprite flips the pixels it covers. -/
theorem pixel_drawnCanvas (x y : Reg) (n : Nibble) (s : State) {px py : Nat} (hx : px < 64)
    (hy : py < 32) : (drawnCanvas x y n.toNat s).1.pixel px py =
      (s.fb.pixel px py ^^ spriteCovers x y n.toNat s px py) := by
  rw [← rowsLand_eq_spriteCovers x y n.toNat s hx hy]
  exact (drawRows_spec _ _ _ (length_sprite_le n s) (s.fb, false)).1 px py

/-- A drawn sprite hits where it covers a pixel that was on. -/
theorem hit_drawnCanvas (x y : Reg) (n : Nibble) (s : State) :
    (drawnCanvas x y n.toNat s).2 = true ↔ ∃ px py, px < 64 ∧ py < 32 ∧
      spriteCovers x y n.toNat s px py = true ∧ s.fb.pixel px py = true := by
  rw [drawnCanvas, (drawRows_spec _ _ _ (length_sprite_le n s) (s.fb, false)).2]
  simp only [Bool.false_eq_true, false_or]
  refine exists_congr fun px => exists_congr fun py =>
    and_congr_right fun hx => and_congr_right fun hy => ?_
  rw [rowsLand_eq_spriteCovers x y n.toNat s hx hy]

theorem flagByte_eq_one {f : Bool} : flagByte f = 0x01#8 ↔ f = true := by
  cases f <;> decide

/-- A sprite in reach, or of no rows, raises nothing. -/
theorem faultOf_drwVxVyN_eq_none {x y : Reg} {n : Nibble} {s : State}
    (h : n = 0#4 ∨ 0x050 ≤ s.i.toNat ∧ s.i.toNat + n.toNat ≤ 0x1000) :
    faultOf (.drwVxVyN x y n) s = none := by
  obtain rfl | ⟨hlo, hhi⟩ := h
  · rfl
  · exact dataFault_eq_none hlo hhi

/-- Settles O39: pixel by pixel the covered ones flip, and a hit is one that was on. -/
theorem drawXorsTheSprite : Obligations.DrawXorsTheSprite := by
  intro x y n s hreach
  have hflag : (effect (.drwVxVyN x y n) s).reg VF = flagByte (drawnCanvas x y n.toNat s).2 :=
    State.reg_setReg_same _ _ _
  refine ⟨_, exec_of_no_fault (faultOf_drwVxVyN_eq_none hreach), rfl,
    fun px py hx hy => pixel_drawnCanvas x y n s hx hy, ?_, ?_,
    othersSame_setReg { s with fb := (drawnCanvas x y n.toNat s).1 } VF _⟩
  · rw [hflag]
    cases (drawnCanvas x y n.toNat s).2
    · exact .inr rfl
    · exact .inl rfl
  · rw [hflag, flagByte_eq_one, hit_drawnCanvas]
    refine exists_congr fun px => exists_congr fun py =>
      and_congr_right fun hx => and_congr_right fun hy => ?_
    change _ ↔ s.fb.pixel px py = true ∧ (drawnCanvas x y n.toNat s).1.pixel px py = false
    rw [pixel_drawnCanvas x y n s hx hy, and_comm]
    refine and_congr_right fun hon => ?_
    rw [hon, Bool.true_xor, Bool.not_eq_false']

/-- A nonzero row has a set bit. -/
theorem exists_bit_of_ne_zero {row : Byte} (h : row ≠ 0x00#8) :
    ∃ c, c < 8 ∧ row.getLsbD (7 - c) = true := by
  by_contra hnone
  push Not at hnone
  refine h (BitVec.eq_of_getLsbD_eq fun k hk => ?_)
  have hbit := hnone (7 - k) (by omega)
  rw [show 7 - (7 - k) = k by omega] at hbit
  simpa using hbit

/-- A sprite covers some pixel where it has a set bit. -/
theorem exists_spriteCovers {x y : Reg} {n : Nat} {s : State} :
    (∃ px py, px < 64 ∧ py < 32 ∧ spriteCovers x y n s px py = true) ↔
      ∃ r, r < n ∧ s.mem.read (s.i.toNat + r) ≠ 0x00#8 := by
  simp only [spriteCovers, List.any_eq_true, List.mem_range, Bool.and_eq_true, decide_eq_true_eq]
  constructor
  · rintro ⟨px, py, -, -, r, hr, c, -, hbit, -⟩
    refine ⟨r, hr, fun hzero => ?_⟩
    rw [hzero] at hbit
    simp at hbit
  · rintro ⟨r, hr, hrow⟩
    obtain ⟨c, hc, hbit⟩ := exists_bit_of_ne_zero hrow
    exact ⟨_, _, Nat.mod_lt _ (by decide), Nat.mod_lt _ (by decide), r, hr, c, hc, hbit, rfl, rfl⟩

/-- Settles O40: the two draws cover the same pixels, so the second undoes the first, and hits those that
the first turned on. -/
theorem drawingTwiceRestoresTheDisplay : Obligations.DrawingTwiceRestoresTheDisplay := by
  intro x y n s hreach
  obtain ⟨t, hdraw, hframe, hpix, hflag, hhit, -⟩ := drawXorsTheSprite x y n s hreach
  have hagain : { t with v := s.v } = { s with fb := t.fb } := by rw [hframe]
  obtain ⟨u, hdraw', -, hpix', -, hhit', -⟩ := drawXorsTheSprite x y n { s with fb := t.fb } hreach
  have hback : ∀ px py, px < 64 → py < 32 → u.fb.pixel px py = s.fb.pixel px py := by
    intro px py hx hy
    have hcover : spriteCovers x y n.toNat { s with fb := t.fb } px py =
        spriteCovers x y n.toNat s px py := rfl
    rw [hpix' px py hx hy, hcover, hpix px py hx hy, Bool.xor_assoc, Bool.xor_self, Bool.xor_false]
  refine ⟨t, u, hdraw, hagain ▸ hdraw', Framebuffer.ext_pixel hback, fun hblank => ⟨?_, ?_⟩⟩
  · refine hflag.resolve_left fun hone => ?_
    obtain ⟨px, py, -, -, hon, -⟩ := hhit.mp hone
    rw [hblank] at hon
    cases hon
  · rw [hhit', ← exists_spriteCovers (x := x) (y := y)]
    refine exists_congr fun px => exists_congr fun py =>
      and_congr_right fun hx => and_congr_right fun hy => ?_
    change t.fb.pixel px py = true ∧ _ ↔ _
    rw [hback px py hx hy, hpix px py hx hy, hblank, Bool.false_xor, and_iff_left rfl]

end Sys2Proof.Machine
end

section
/-! PROOFS. Frames over every instruction (10_state.md R21 to R28, R32, R33), and what no instruction
reads. -/

open Sys2Proof.Claims

namespace Sys2Proof.Machine

theorem State.reg_setReg_of_beq {x r : Reg} (s : State) (b : Byte) (h : (r == x) = false) :
    (s.setReg x b).reg r = s.reg r :=
  othersSame_setReg s x b r (ne_of_beq_false h)

theorem State.reg_setRegFlag_of_beq {x r : Reg} (s : State) (b : Byte) (f : Bool)
    (h : (r == x || r == VF) = false) : (s.setRegFlag x b f).reg r = s.reg r := by
  obtain ⟨hx, hflag⟩ := Bool.or_eq_false_iff.mp h
  exact othersSameBarFlag_setRegFlag s x b f r (ne_of_beq_false hx) (ne_of_beq_false hflag)

/-- A register an instruction does not name is as before. -/
theorem effect_reg {i : Instr} {r : Reg} (s : State) (h : writesReg i r = false) :
    (effect i s).reg r = s.reg r := by
  cases i with
  | ldVxNn x nn | addVxNn x nn | ldVxDt x => exact s.reg_setReg_of_beq _ h
  | ldVxVy x y | orVxVy x y | andVxVy x y | xorVxVy x y => exact s.reg_setReg_of_beq _ h
  | rndVxNn x nn => exact State.reg_setReg_of_beq { s with draws := s.draws + 1 } _ h
  | drwVxVyN x y n =>
    exact State.reg_setReg_of_beq { s with fb := (drawnCanvas x y n.toNat s).1 } _ h
  | addVxVy x y | subVxVy x y | shrVx x y | subnVxVy x y | shlVx x y =>
    exact s.reg_setRegFlag_of_beq _ _ h
  | ldVxK x =>
    by_cases hkeys : s.keys = 0#16
    · simp only [effect, State.reg, if_pos hkeys]
    · simp only [effect, State.reg, if_neg hkeys]
      exact s.reg_setReg_of_beq _ h
  | ldVxMem x => rw [reg_effect_ldVxMem, if_neg (of_decide_eq_false h)]
  | _ => rfl

/-- Settles O51: the law of the registers, of the state an instruction ends in. -/
theorem registersChangeOnlyWhereNamed : Obligations.RegistersChangeOnlyWhereNamed := by
  intro i s t r hexec hreg
  obtain ⟨-, rfl⟩ := exec_eq_next.mp hexec
  exact effect_reg s hreg

theorem effect_pc {i : Instr} (s : State) (h : writesPc i = false) : (effect i s).pc = s.pc := by
  cases i with
  | ret | jpNnn _ | callNnn _ | jpV0Nnn _ | ldVxK _ => cases h
  | seVxNn _ _ | sneVxNn _ _ | seVxVy _ _ _ | sneVxVy _ _ _ | skpVx _ | sknpVx _ => cases h
  | _ => rfl

theorem effect_i {i : Instr} {s : State} (h : (effect i s).i ≠ s.i) :
    (∃ nnn, i = .ldINnn nnn) ∨ (∃ x, i = .addIVx x) ∨ ∃ x, i = .ldFVx x := by
  cases i with
  | ldINnn nnn => exact .inl ⟨nnn, rfl⟩
  | addIVx x => exact .inr (.inl ⟨x, rfl⟩)
  | ldFVx x => exact .inr (.inr ⟨x, rfl⟩)
  | _ => exact absurd rfl h

theorem effect_dt {i : Instr} {s : State} (h : (effect i s).dt ≠ s.dt) : ∃ x, i = .ldDtVx x := by
  cases i with
  | ldDtVx x => exact ⟨x, rfl⟩
  | _ => exact absurd rfl h

theorem effect_st {i : Instr} {s : State} (h : (effect i s).st ≠ s.st) : ∃ x, i = .ldStVx x := by
  cases i with
  | ldStVx x => exact ⟨x, rfl⟩
  | _ => exact absurd rfl h

theorem effect_keys (i : Instr) (s : State) : (effect i s).keys = s.keys := by
  cases i <;> rfl

theorem effect_fb {i : Instr} {s : State} (h : (effect i s).fb ≠ s.fb) :
    i = .cls ∨ ∃ x y n, i = .drwVxVyN x y n := by
  cases i with
  | cls => exact .inl rfl
  | drwVxVyN x y n => exact .inr ⟨x, y, n, rfl⟩
  | _ => exact absurd rfl h

theorem effect_draws {i : Instr} {s : State} (h : (effect i s).draws ≠ s.draws) :
    (∃ x nn, i = .rndVxNn x nn) ∧ (effect i s).draws = s.draws + 1 := by
  cases i with
  | rndVxNn x nn => exact ⟨⟨x, nn, rfl⟩, rfl⟩
  | _ => exact absurd rfl h

/-- Settles O53: field by field, of the state an instruction ends in. -/
theorem specialStateChangesOnlyWhereNamed : Obligations.SpecialStateChangesOnlyWhereNamed := by
  intro i s t hexec
  obtain ⟨-, rfl⟩ := exec_eq_next.mp hexec
  refine ⟨effect_pc s, effect_i, fun hsp => ?_, effect_dt, effect_st, effect_keys i s, effect_fb,
    effect_draws⟩
  obtain hcall | hret | hsame := effect_sp i s
  · exact .inl hcall
  · exact .inr hret
  · exact absurd hsame hsp

/-! ## Noninterference -/

theorem mapNext_ending (f : State → State) (o : Option Fault) (t : State) :
    mapNext f (ending o t) = ending o (f t) := by
  cases o <;> rfl

/-- Consecutive register writes depend on the registers only. -/
theorem State.setRegsFrom_v_congr {s s' : State} (k : Nat) (bs : List Byte) (h : s.v = s'.v) :
    (s.setRegsFrom k bs).v = (s'.setRegsFrom k bs).v := by
  induction bs generalizing s s' k with
  | nil => exact h
  | cons b bs ih =>
    simp only [State.setRegsFrom]
    split
    · exact ih _ (by simp only [h])
    · exact h

theorem faultOf_keys {i : Instr} (s : State) (k : Word) (h : readsKeys i = false) :
    faultOf i { s with keys := k } = faultOf i s := by
  cases i with
  | skpVx x | sknpVx x | ldVxK x => cases h
  | _ => rfl

theorem effect_set_keys {i : Instr} (s : State) (k : Word) (h : readsKeys i = false) :
    effect i { s with keys := k } = { effect i s with keys := k } := by
  cases i with
  | skpVx x | sknpVx x | ldVxK x => cases h
  | ldVxMem x =>
    simp only [effect]
    rw [State.setRegsFrom_v_congr 0 _ (show { s with keys := k }.v = s.v from rfl)]
    rfl
  | _ => rfl

/-- Settles O54: neither the raise point nor the state reached depends on the latch, which is kept. -/
theorem onlyKeyInstructionsReadTheKeys : Obligations.OnlyKeyInstructionsReadTheKeys := by
  intro i s k h
  rw [exec_eq, exec_eq, mapNext_ending, faultOf_keys s k h, effect_set_keys s k h]

theorem faultOf_st (i : Instr) (s : State) (b : Byte) : faultOf i { s with st := b } = faultOf i s := by
  cases i <;> rfl

theorem effect_set_st (i : Instr) (s : State) (b : Byte) :
    withoutSound (effect i { s with st := b }) = withoutSound (effect i s) := by
  cases i with
  | ldVxMem x =>
    simp only [effect, withoutSound]
    rw [State.setRegsFrom_v_congr 0 _ (show { s with st := b }.v = s.v from rfl)]
    rfl
  | _ => rfl

theorem exec_set_st (i : Instr) (s : State) (b : Byte) :
    mapNext withoutSound (exec i { s with st := b }) = mapNext withoutSound (exec i s) := by
  rw [exec_eq, exec_eq, mapNext_ending, mapNext_ending, faultOf_st, effect_set_st]

/-- R27: no step reads the sound timer: the fetch does not, and no instruction does. -/
theorem step_set_st (s : State) (b : Byte) :
    mapNext withoutSound (step { s with st := b }) = mapNext withoutSound (step s) := by
  obtain ⟨f, hfetch, hstep, -⟩ | ⟨hnone, ⟨r, hdec, hstep, -⟩ | ⟨i, hdec, hstep, -⟩⟩ := step_cases s <;>
    rw [hstep]
  · rw [step_of_fetchFault (s := { s with st := b }) hfetch]
  · obtain ⟨hlo, hhi⟩ := fetchFaultOf_eq_none.mp hnone
    rw [(unsupportedWordAdvancesThePcOnly { s with st := b } r hlo hhi hdec).1]
    rfl
  · obtain ⟨hlo, hhi⟩ := fetchFaultOf_eq_none.mp hnone
    rw [stepRunsTheDecodedInstruction { s with st := b } i hlo hhi hdec]
    exact exec_set_st i s.advanced b

theorem step_congr_withoutSound {s s' : State} (h : withoutSound s = withoutSound s') :
    mapNext withoutSound (step s) = mapNext withoutSound (step s') :=
  calc mapNext withoutSound (step s) = mapNext withoutSound (step (withoutSound s)) :=
        (step_set_st s _).symm
    _ = mapNext withoutSound (step (withoutSound s')) := by rw [h]
    _ = mapNext withoutSound (step s') := step_set_st s' _

/-- A run goes on from the next state. -/
theorem run_succ_of_next {s t : State} (k : Nat) (h : step s = .next t) :
    Host.Core.run core (k + 1) s = Host.Core.run core k t := by
  have hstep : core.step s = .next t := h
  simp only [Host.Core.run, hstep]

/-- A run ends at a fault. -/
theorem run_succ_of_fault {s : State} {f : Fault} (k : Nat) (h : step s = .fault f) :
    Host.Core.run core (k + 1) s = .fault f := by
  have hstep : core.step s = .fault f := h
  simp only [Host.Core.run, hstep]

theorem run_congr_withoutSound (k : Nat) {s s' : State} (h : withoutSound s = withoutSound s') :
    mapNext withoutSound (Host.Core.run core k s) = mapNext withoutSound (Host.Core.run core k s') := by
  induction k generalizing s s' with
  | zero => exact congrArg Host.Outcome.next h
  | succ k ih =>
    have hsteps := step_congr_withoutSound h
    obtain ⟨t, ht⟩ | ⟨f, hf⟩ := (stepFaultsExactlyAtTheRaisePoints s).2 <;>
      obtain ⟨t', ht'⟩ | ⟨f', hf'⟩ := (stepFaultsExactlyAtTheRaisePoints s').2
    · rw [ht, ht'] at hsteps
      rw [run_succ_of_next k ht, run_succ_of_next k ht']
      exact ih (Host.Outcome.next.inj hsteps)
    · rw [ht, hf'] at hsteps
      cases hsteps
    · rw [hf, ht'] at hsteps
      cases hsteps
    · rw [hf, hf'] at hsteps
      rw [run_succ_of_fault k hf, run_succ_of_fault k hf']
      exact hsteps

/-- Settles O55: states alike but for the sound timer stay so, step by step. -/
theorem soundTimerNeverAffectsARun : Obligations.SoundTimerNeverAffectsARun := by
  intro k s b
  exact run_congr_withoutSound k rfl

end Sys2Proof.Machine
end

section
/-! PROOFS. Reset and the host's operations (60_exceptions.md R233 to R240, 70_reset_and_hazards.md R260,
20_memory.md R80, R81). -/

open Sys2Proof.Claims

namespace Sys2Proof.Machine

/-- The font bytes are the glyphs, row after row (R79). -/
theorem font_eq_glyphRows :
    ∀ g < 16, ∀ r < 5, Params.font.getD (5 * g + r) 0x00#8 = (glyphRows.getD g []).getD r 0x00#8 := by
  decide

/-- Settles O1: memory lists nothing at reset, so it reads as the font and zero elsewhere. -/
theorem resetLeavesTheListedState : Obligations.ResetLeavesTheListedState := by
  refine ⟨fun x => ?_, rfl, rfl, rfl, rfl, rfl, rfl, Framebuffer.pixel_blank, fun g r hg hr => ?_,
    fun a ha => ?_⟩
  · simp [State.reg, State.reset]
  · rw [Nat.add_assoc]
    exact (Memory.unlisted_font _).trans (font_eq_glyphRows g hg r hr)
  · exact Memory.unlisted_zero (.inr ha)

/-- Settles O56: the bytes kept fit below 0x1000, so each is read back where it was copied to. -/
theorem loadCopiesTheProgram : Obligations.LoadCopiesTheProgram := by
  intro bytes s a
  refine ⟨rfl, ?_⟩
  have hlen : (bytes.take Config.programMax).length = min bytes.length 3584 := by
    rw [List.length_take, Nat.min_comm]
    rfl
  have hfits : Config.programStart + (bytes.take Config.programMax).length ≤ Config.memSize := by
    rw [hlen]
    simp only [Config.programStart, Config.memSize]
    omega
  rw [hostLoad, Memory.read_writes _ _ _ _ (by decide) hfits]
  by_cases ha : 0x200 ≤ a ∧ a < 0x200 + min bytes.length 3584
  · have hindex : a - 0x200 < bytes.length := by omega
    rw [if_pos ha, dif_pos (by rw [hlen]; exact ha), List.getElem_take]
    exact (List.getD_eq_getElem _ _ hindex).symm
  · rw [if_neg ha, dif_neg (by rw [hlen]; exact ha)]

/-- D19: a tick takes 1 off and stops at zero. -/
theorem toNat_tick (t : Byte) : (tick t).toNat = t.toNat - 1 := by
  unfold tick
  split
  · subst t; rfl
  · rename_i hne
    have hpos : t.toNat ≠ 0 := fun h => hne (BitVec.eq_of_toNat_eq h)
    have ht := t.isLt
    rw [BitVec.toNat_sub, BitVec.toNat_ofNat]
    omega

/-- Settles O57: both timers tick alike. -/
theorem hostTicksTimersAndSetsKeys : Obligations.HostTicksTimersAndSetsKeys := by
  intro k s
  exact ⟨toNat_tick s.dt, toNat_tick s.st, rfl, rfl⟩

theorem act_fresh_step (s : State) : Session.act (.fresh s) .step = Session.afterStep (step s) := rfl

theorem act_running_step (s : State) :
    Session.act (.running s) .step = Session.afterStep (step s) := rfl

theorem act_halted {op : HostOp} (h : op ≠ .reset) : Session.act .halted op = none := by
  cases op with
  | reset => exact absurd rfl h
  | _ => rfl

/-- Settles O58: one row of the protocol each. -/
theorem hostProtocol : Obligations.HostProtocol := by
  intro c op bytes k s t f
  refine ⟨act_reset c, rfl, rfl, fun hnext => ?_, fun hfault => ?_, act_halted, rfl, rfl, rfl, rfl⟩
  · rw [act_fresh_step, act_running_step, hnext]
    exact ⟨rfl, rfl⟩
  · rw [act_fresh_step, act_running_step, hfault]
    exact ⟨rfl, rfl⟩

/-- R35: register `r` shows at 0x010 + `r`. -/
theorem dumpByte_reg (s : State) (r : Reg) : dumpByte s (0x010 + r.toNat) = some (s.reg r) := by
  have hr := r.isLt
  have hindex : BitVec.ofNat 4 (0x010 + r.toNat - 0x010) = r := by
    rw [Nat.add_sub_cancel_left, BitVec.ofNat_toNat, BitVec.setWidth_eq]
  rw [dumpByte, if_neg (by omega), if_neg (by omega), if_neg (by omega), if_pos (by omega), hindex]

/-- R81: outside the layout's fields a dump shows the real bytes of `M` and no others. -/
theorem dumpByte_other (s : State) {a : Nat} (h : a ≤ 0x002 ∨ (0x006 ≤ a ∧ a ≤ 0x00F) ∨ 0x020 ≤ a) :
    dumpByte s a = if Memory.InRange a then some (s.mem.read a) else none := by
  rw [dumpByte, if_neg (by omega), if_neg (by omega), if_neg (by omega), if_neg (by omega)]

/-- Settles O59: the layout's fields, then memory in and out of range. -/
theorem dumpShowsTheByteImage : Obligations.DumpShowsTheByteImage := by
  intro s a
  refine ⟨rfl, rfl, rfl, dumpByte_reg s, fun lo hi => ?_, fun hno => ?_⟩
  · rw [dumpByte_other s (by omega), if_pos]
    exact ⟨lo, Nat.lt_succ_of_le hi⟩
  · rw [dumpByte_other s (by omega), if_neg]
    simp only [Memory.InRange, Config.blockHi, Config.memSize]
    omega

end Sys2Proof.Machine
end
